-- ==== Sys2Proof/Word.lean ====
section
/-! DEFINITION. The word types of the engine (spec/00_scope.md R9, R12, R15). -/

namespace Sys2Proof

/-- A datapath word: u32 (R9). Sums wrap modulo 2^32 (R15). -/
abbrev Word := BitVec 32

/-- One byte of a byte buffer (R18). -/
abbrev Byte := BitVec 8

/-- A position or a nonce: u64 (R12). Sums wrap modulo 2^64 (R15). -/
abbrev DWord := BitVec 64

end Sys2Proof
end

