-- ==== Sys2Proof/Syntax.lean ====
section
/-! DEFINITION. The commands of the engine, one constructor per row of spec/opcode_table.json
(spec/30_encoding.md R92). Every operand is implicit (R91), so no constructor carries one. -/

namespace Sys2Proof

/-- The engine's only instructions: the commands a host writes to CMD (R90, R92). -/
inductive Instr where
  /-- NOP (R160). -/
  | nop
  /-- CFG (R162). -/
  | cfg
  /-- GEN (R140). -/
  | gen
  /-- GENINC (R141). -/
  | geninc
  /-- XOR (R150). -/
  | xor
  /-- QR (R112). -/
  | qr
  /-- CLR (R164). -/
  | clr
  /-- CLRERR (R166). -/
  | clrerr
deriving DecidableEq, Repr

end Sys2Proof
end

