-- ==== Sys2Proof/WellFormed.lean ====
section
/-! DEFINITION. The checks that say which command words and which host accesses belong to the interface
(spec/30_encoding.md R90, R94; spec/20_memory.md R62). An Instr carries no operand (R91), so every term of Instr is
well formed and there is nothing to check on one; what can be ill formed is the raw word a host writes to CMD and the
raw access it makes. -/

namespace Sys2Proof

/-- Field RSVD, bits 31:8 of a command word, is zero (R90). -/
def rsvdZero (w : Word) : Bool := w.extractLsb' 8 24 == 0#24

/-- Field OP, bits 7:0 of a command word, names a command: 0x08 to 0xFF are reserved (R92, R94). -/
def opAssigned (w : Word) : Bool := decide ((w.extractLsb' 0 8).toNat < 8)

/-- A legal command word (R94): RSVD zero and OP assigned. -/
def commandWordOk (w : Word) : Bool := rsvdZero w && opAssigned w

/-- The access moves exactly 32 bits, four bytes (R62). -/
def accessWidthOk (n : Nat) : Bool := n == 4

/-- The offset from BASE lies within the window: 0 <= off <= 0x0FC (R62). -/
def offsetInWindow (off : Int) : Bool := decide (0 ≤ off) && decide (off ≤ 0xFC)

/-- The offset is a multiple of 4 (R62). -/
def offsetAligned (off : Int) : Bool := off % 4 == 0

/-- A host access of n bytes at offset off from BASE is within the interface (R62). -/
def accessOk (off : Int) (n : Nat) : Bool := accessWidthOk n && offsetInWindow off && offsetAligned off

end Sys2Proof
end

