-- ==== Sys2Proof/Decode.lean ====
section
/-! DEFINITION. The command decoder, total on every 32-bit word and rejecting by name (spec/30_encoding.md R90, R92,
R94, R95), and after it the encoder, written from the same table (R92). -/

namespace Sys2Proof

/-- Why a command word is illegal (R94). -/
inductive DecodeError where
  /-- RSVD, bits 31:8, is not zero. -/
  | reservedBits
  /-- OP is in 0x08 to 0xFF. -/
  | reservedOp
deriving DecidableEq, Repr

/-- Field OP of a command word: bits 7:0 (R90). -/
def opField (w : Word) : BitVec 8 := w.extractLsb' 0 8

/-- Field RSVD of a command word: bits 31:8 (R90). -/
def rsvdField (w : Word) : BitVec 24 := w.extractLsb' 8 24

/-- The command a value of OP selects (R92, R95). -/
def decodeOp (op : BitVec 8) : Except DecodeError Instr :=
  match op.toNat with
  | 0x00 => .ok .nop
  | 0x01 => .ok .cfg
  | 0x02 => .ok .gen
  | 0x03 => .ok .geninc
  | 0x04 => .ok .xor
  | 0x05 => .ok .qr
  | 0x06 => .ok .clr
  | 0x07 => .ok .clrerr
  | _ => .error .reservedOp

/-- decode(w) of R95: ILLEGAL when RSVD is not zero whatever OP is, else by OP. -/
def decode (w : Word) : Except DecodeError Instr :=
  if rsvdField w = 0#24 then decodeOp (opField w) else .error .reservedBits

/-- The operation code of a command (R92). -/
def Instr.opcode : Instr → BitVec 8
  | .nop => 0x00
  | .cfg => 0x01
  | .gen => 0x02
  | .geninc => 0x03
  | .xor => 0x04
  | .qr => 0x05
  | .clr => 0x06
  | .clrerr => 0x07

/-- The command word of a command: RSVD = 0 in bits 31:8, OP in bits 7:0 (R90, R92). -/
def encode (i : Instr) : Word := i.opcode.setWidth 32

/-- The 32-bit command word that a row of the opcode table stands for: its nbits low bits are those of w and every
bit above them is zero. -/
def tableWord (nbits w : Nat) : Word := BitVec.ofNat 32 (w % 2 ^ nbits)

/-- The command the decoder reads from the word w, its bits numbered as spec/opcode_table.json numbers them. -/
def decodeTableWord (nbits w : Nat) : Option Instr :=
  match decode (tableWord nbits w) with
  | .ok i => some i
  | .error _ => none

end Sys2Proof
end

