-- ==== Sys2Proof/Config.lean ====
section
/-! DEFINITION. What the platform or the construction fixes, and the free values the spec leaves open
(spec/00_scope.md R11, R13, R14, R17). A free value is a constant with no body: no proof can learn what it is. -/

namespace Sys2Proof.Config

/-- The platform parameter BASE divided by 256: an open parameter of the model (R14, D35). -/
opaque basePage : Nat

/-- BASE, the bus address of offset 0x000, aligned to 256 bytes (R14, R60, D35). -/
def base : Nat := 256 * basePage

/-- Draw(), "a value the model chooses freely" (R17, D19): the free u32 that draw number k answers. -/
opaque draw : Nat → Word

/-- nonceSource, the random 64-bit source of the host (R14, R186, D32): the free u64 that call number k answers. -/
opaque nonceSource : Nat → DWord

/-- The default round count, in double-rounds (R2, R11). -/
def defaultRounds : Word := 10

/-- KS_BYTES, the length of a keystream block in bytes (R13). -/
def ksBytes : Nat := 32

end Sys2Proof.Config
end

