-- ==== Sys2Proof/Machine/State.lean ====
section
/-! DEFINITION. The state of the engine and of its interface as plain data (spec/10_state.md R20 to R44), the reasons a
step can stop, and the state after reset (R44). -/

namespace Sys2Proof.Machine

open Sys2Proof

/-- The working state matrix, 16 words in row-major order: S[4*r + c] is row r, column c (R16, R41). -/
abbrev Matrix := Vector Word 16

/-- The codes of STATUS.ERR (spec/60_exceptions.md R200). Codes 8 to 15 are never produced, so they are no value here. -/
inductive ErrCode where
  /-- 0: no error since the last CLRERR or reset. -/
  | none
  /-- 1: a write came while STATUS.BUSY = 1. -/
  | busy
  /-- 2: OP in 0x08 to 0xFF or RSVD not zero. -/
  | illegalCmd
  /-- 3: the engine is already constructed. -/
  | locked
  /-- 4: s32(ROUNDS) <= 0 at CFG. -/
  | badRounds
  /-- 5: GEN or GENINC with LOCKED = 0. -/
  | notConfigured
  /-- 6: XOR with KSV = 0. -/
  | noKeystream
  /-- 7: XOR with LEN > 32. -/
  | badLen
deriving DecidableEq, Repr

/-- The long commands, those that PEND can hold (R40). -/
inductive LongOp where
  | gen
  | geninc
  | xor
  | qr
deriving DecidableEq, Repr

/-- The registers of the window (spec/20_memory.md R61). -/
inductive Reg where
  /-- CMD, WO. -/
  | cmd
  /-- STATUS, RO. -/
  | status
  /-- ROUNDS, RW, writes need LOCKED = 0. -/
  | rounds
  /-- KEY[i], WO, writes need LOCKED = 0. -/
  | key (i : Fin 8)
  /-- POS_LO, RW. -/
  | posLo
  /-- POS_HI, RW. -/
  | posHi
  /-- NONCE_LO, RW. -/
  | nonceLo
  /-- NONCE_HI, RW. -/
  | nonceHi
  /-- LEN, RW. -/
  | len
  /-- Q[i], RW. -/
  | q (i : Fin 4)
  /-- DIN[i], RW. -/
  | din (i : Fin 8)
  /-- DOUT[i], RO. -/
  | dout (i : Fin 8)
  /-- KS[i], RO. -/
  | ks (i : Fin 16)
  /-- A reserved offset: reads as 0, writes ignored. -/
  | reserved
deriving DecidableEq, Repr

/-- One host access of n bytes at bus address BASE + off (R17, R62). The offset is an integer, so that an access below
or beyond the window can be written down too. -/
inductive Access where
  /-- MemRead(BASE + off, n). -/
  | read (off : Int) (n : Nat)
  /-- MemWrite(BASE + off, n, v). An access with n other than 4 is refused whatever v is. -/
  | write (off : Int) (n : Nat) (v : Word)
deriving DecidableEq, Repr

/-- The three kinds of atomic step that change the engine's state (R73). -/
inductive Input where
  /-- A host register access (R65 to R69). -/
  | host (a : Access)
  /-- The engine agent's turn: its completion step, when it has one (R240). -/
  | engine
  /-- The platform's reset, with the host access that overlaps it, if any (R230, R231). -/
  | reset (overlap : Option Access)
deriving DecidableEq, Repr

/-- The state. Every field down to mat is a register, a STATUS field or hidden state of spec/10_state.md; inputs, draws
and replies are the model's own (notes/assumptions 1, 3, 4). -/
structure State where
  /-- ROUNDS (R22). -/
  rounds : Word
  /-- KEY[0..7] (R23). -/
  key : Vector Word 8
  /-- POS_LO (R24). -/
  posLo : Word
  /-- POS_HI (R24). -/
  posHi : Word
  /-- NONCE_LO (R25). -/
  nonceLo : Word
  /-- NONCE_HI (R25). -/
  nonceHi : Word
  /-- LEN (R26). -/
  len : Word
  /-- DIN[0..7] (R27). -/
  din : Vector Word 8
  /-- Q[0..3] (R28). -/
  q : Vector Word 4
  /-- KS[0..15] (R29). -/
  ks : Vector Word 16
  /-- DOUT[0..7] (R30). -/
  dout : Vector Word 8
  /-- STATUS.BUSY (R32, R33). -/
  busy : Bool
  /-- STATUS.LOCKED (R32, R34). -/
  locked : Bool
  /-- STATUS.KSV (R32, R35). -/
  ksv : Bool
  /-- STATUS.ERR (R32, R36). -/
  err : ErrCode
  /-- PEND, hidden (R40). -/
  pend : Option LongOp
  /-- S[0..15], hidden (R41). -/
  mat : Matrix
  /-- What happens next, oldest first: host accesses, turns of the engine and resets in their one total order (R73). -/
  inputs : List Input
  /-- How many values Draw() has given so far (R17): the next draw is Config.draw draws. -/
  draws : Nat
  /-- The words that host reads have returned so far, newest first (R65). -/
  replies : List Word
deriving DecidableEq, Repr

/-- The machine right after reset (R44): ROUNDS = 10, every other register 0, STATUS = 0, PEND = NONE. S is unspecified
there and held as zero, as R41 allows (notes/assumptions 8). -/
def State.reset : State where
  rounds := Config.defaultRounds
  key := Vector.replicate 8 0
  posLo := 0
  posHi := 0
  nonceLo := 0
  nonceHi := 0
  len := 0
  din := Vector.replicate 8 0
  q := Vector.replicate 4 0
  ks := Vector.replicate 16 0
  dout := Vector.replicate 8 0
  busy := false
  locked := false
  ksv := false
  err := .none
  pend := none
  mat := Vector.replicate 16 0
  inputs := []
  draws := 0
  replies := []

/-- The reasons the machine stops with a fault: none. The engine has no trap (R201): an error is recorded in STATUS.ERR
and the engine goes on, and a completion never fails (R205). Nothing raises a fault, which is safe. -/
inductive Fault where
deriving DecidableEq, Repr

/-- The reasons the model gives a host access no step (R62), and the rejection by name of a command that has no meaning. -/
inductive Refusal where
  /-- A command without a meaning: raised by an arm of exec only. No arm raises it in this model. Safe. -/
  | notModelled (mnemonic : String)
  /-- A host access of a width other than 32 bits: raised by hostAccess, as R62 asks. Safe: no step, nothing claimed. -/
  | accessWidth
  /-- A host access below BASE or beyond offset 0x0FC: raised by hostAccess, as R62 asks. Safe. -/
  | beyondWindow
  /-- A host access at an offset that is no multiple of 4: raised by hostAccess, as R62 asks. Safe. -/
  | misaligned
deriving DecidableEq, Repr

/-- What a step, a command or an access answers. -/
abbrev Result := Host.Outcome State Fault Refusal

end Sys2Proof.Machine
end

