-- ==== Sys2Proof/Machine/Flags.lean ====
section
/-! DEFINITION. The STATUS register: the word a host reads, the code of each error, and the two updates of STATUS.BUSY
and PEND that long commands share (spec/10_state.md R32, R33, R40; spec/60_exceptions.md R200). -/

namespace Sys2Proof.Machine

open Sys2Proof

/-- The code of an error in STATUS.ERR (R200). -/
def ErrCode.code : ErrCode → BitVec 4
  | .none => 0
  | .busy => 1
  | .illegalCmd => 2
  | .locked => 3
  | .badRounds => 4
  | .notConfigured => 5
  | .noKeystream => 6
  | .badLen => 7

/-- The STATUS word (R32): bit 0 BUSY, bit 1 LOCKED, bit 2 KSV, bits 7:3 zero, bits 11:8 ERR, bits 31:12 zero. -/
def statusWord (s : State) : Word :=
  (s.err.code.setWidth 32 <<< 8) ||| ((BitVec.ofBool s.ksv).setWidth 32 <<< 2) |||
    ((BitVec.ofBool s.locked).setWidth 32 <<< 1) ||| (BitVec.ofBool s.busy).setWidth 32

/-- STATUS.BUSY <- 1 and PEND <- op, the end of every long command's issue part (R33, R40). -/
def beginLong (op : LongOp) (s : State) : State := { s with busy := true, pend := some op }

/-- STATUS.BUSY <- 0 and PEND <- NONE, the end of every completion part (R33, R240). -/
def endLong (s : State) : State := { s with busy := false, pend := none }

end Sys2Proof.Machine
end

