-- ==== Sys2Proof/Machine/Operands.lean ====
section
/-! DEFINITION. The operands of commands and accesses: bytes of words and byte buffers (spec/00_scope.md R15, R18), the
64-bit pairs (R24, R25), the register map (spec/20_memory.md R61), and the plain read and write of one register. -/

namespace Sys2Proof.Machine

open Sys2Proof

/-- Byte k of a word, v[8*k+7 : 8*k] (R15, R18). -/
def byteOf (w : Word) (k : Nat) : Byte := w.extractLsb' (8 * k) 8

/-- The word whose bytes 0, 1, 2, 3 are the arguments: byte 3 in the upper bits (R18, R150). -/
def packWord (b0 b1 b2 b3 : Byte) : Word :=
  (b3.setWidth 32 <<< 24) ||| (b2.setWidth 32 <<< 16) ||| (b1.setWidth 32 <<< 8) ||| b0.setWidth 32

/-- Byte j of a byte buffer held in n words, little-endian (R18). -/
def bufByte {n : Nat} (buf : Vector Word n) (j : Fin (4 * n)) : Byte := byteOf (buf[j.val / 4]) (j.val % 4)

/-- The n words that hold a byte buffer, little-endian (R18). -/
def packWords (n : Nat) (byte : Nat → Byte) : Vector Word n :=
  Vector.ofFn fun i => packWord (byte (4 * i)) (byte (4 * i + 1)) (byte (4 * i + 2)) (byte (4 * i + 3))

/-- hi : lo, the upper word in the upper bits (R15). -/
def join64 (hi lo : Word) : DWord := (hi.setWidth 64 <<< 32) ||| lo.setWidth 64

/-- v[31:0]. -/
def lowWord (v : DWord) : Word := v.extractLsb' 0 32

/-- v[63:32]. -/
def highWord (v : DWord) : Word := v.extractLsb' 32 32

/-- POS = POS_HI : POS_LO (R24). -/
def State.pos (s : State) : DWord := join64 s.posHi s.posLo

/-- NONCE = NONCE_HI : NONCE_LO (R25). -/
def State.nonce (s : State) : DWord := join64 s.nonceHi s.nonceLo

/-- The round count n = s32(ROUNDS) as a number of double-rounds (R22, R127). A count below 1 never reaches a GEN
(R127, R163); here it would read as 0 (notes/assumptions 11). -/
def State.roundCount (s : State) : Nat := s.rounds.toInt.toNat

/-- The register map of R61, by the number off / 4 of the aligned offset off. -/
def regOfIndex (k : Nat) : Reg :=
  if k = 0 then .cmd
  else if k = 1 then .status
  else if k = 2 then .rounds
  else if k = 3 then .reserved
  else if k < 12 then .key (Fin.ofNat 8 (k - 4))
  else if k = 12 then .posLo
  else if k = 13 then .posHi
  else if k = 14 then .nonceLo
  else if k = 15 then .nonceHi
  else if k = 16 then .len
  else if k < 20 then .reserved
  else if k < 24 then .q (Fin.ofNat 4 (k - 20))
  else if k < 32 then .din (Fin.ofNat 8 (k - 24))
  else if k < 40 then .dout (Fin.ofNat 8 (k - 32))
  else if k < 48 then .reserved
  else if k < 64 then .ks (Fin.ofNat 16 (k - 48))
  else .reserved

/-- The register at the offset off of the window (R61). -/
def regAt (off : Nat) : Reg := regOfIndex (off / 4)

/-- off(reg), the offset of a register (R61, R96). A reserved offset is no register of that list; 0x00C stands for it. -/
def Reg.offset : Reg → Nat
  | .cmd => 0x000
  | .status => 0x004
  | .rounds => 0x008
  | .key i => 0x010 + 4 * i
  | .posLo => 0x030
  | .posHi => 0x034
  | .nonceLo => 0x038
  | .nonceHi => 0x03C
  | .len => 0x040
  | .q i => 0x050 + 4 * i
  | .din i => 0x060 + 4 * i
  | .dout i => 0x080 + 4 * i
  | .ks i => 0x0C0 + 4 * i
  | .reserved => 0x00C

/-- What a read of a register answers when nothing makes it a draw (R65): the value of an RW or RO register, and 0 for
CMD, KEY[i] and reserved offsets. -/
def regValue (r : Reg) (s : State) : Word :=
  match r with
  | .cmd => 0
  | .status => statusWord s
  | .rounds => s.rounds
  | .key _ => 0
  | .posLo => s.posLo
  | .posHi => s.posHi
  | .nonceLo => s.nonceLo
  | .nonceHi => s.nonceHi
  | .len => s.len
  | .q i => s.q[i]
  | .din i => s.din[i]
  | .dout i => s.dout[i]
  | .ks i => s.ks[i]
  | .reserved => 0

/-- REG <- v for the registers a host can write, all 32 bits (R22 to R28); every other register is left as it is (R69). -/
def setReg (r : Reg) (v : Word) (s : State) : State :=
  match r with
  | .cmd => s
  | .status => s
  | .rounds => { s with rounds := v }
  | .key i => { s with key := s.key.set i v }
  | .posLo => { s with posLo := v }
  | .posHi => { s with posHi := v }
  | .nonceLo => { s with nonceLo := v }
  | .nonceHi => { s with nonceHi := v }
  | .len => { s with len := v }
  | .q i => { s with q := s.q.set i v }
  | .din i => { s with din := s.din.set i v }
  | .dout _ => s
  | .ks _ => s
  | .reserved => s

/-- The destination registers of a long command (R65). -/
def isDestination (op : LongOp) (r : Reg) : Bool :=
  match op, r with
  | .gen, .ks _ => true
  | .geninc, .ks _ => true
  | .geninc, .posLo => true
  | .geninc, .posHi => true
  | .xor, .dout _ => true
  | .qr, .q _ => true
  | _, _ => false

end Sys2Proof.Machine
end

