-- ==== Sys2Proof/Machine/Ops.lean ====
section
/-! DEFINITION. The operations the commands and accesses share: recording an error, the engine's only form of exception
(spec/60_exceptions.md R201, R204), the issue check of every command (R202), and answering a read (spec/20_memory.md
R65). The engine has no trap, so there is no saved state, no handler and no return from one (R201, R206). -/

namespace Sys2Proof.Machine

open Sys2Proof

/-- set_err(code): ERR keeps the first error since the last CLRERR or reset (R204). -/
def setErr (c : ErrCode) (s : State) : State :=
  { s with err := if s.err = .none then c else s.err }

/-- raise Error(code): record the code and end the command or write with no other effect (R17, R201). -/
def raiseError (c : ErrCode) (s : State) : Result := .next (setErr c s)

/-- The first issue check of R202, common to every write to CMD: BUSY is raised before anything else is looked at. -/
def issueChecked (s : State) (body : State → Result) : Result :=
  if s.busy then raiseError .busy s else body s

/-- What an illegal command word does once BUSY is ruled out: it raises ILLEGAL_CMD (R94, R202). -/
def issueIllegal (s : State) : Result := issueChecked s (raiseError .illegalCmd)

/-- Answer a host read with the word v. -/
def answer (v : Word) (s : State) : State := { s with replies := v :: s.replies }

/-- Answer a host read with Draw(), a free word; the next draw is another one (R17). -/
def answerDraw (s : State) : State :=
  { s with replies := Config.draw s.draws :: s.replies, draws := s.draws + 1 }

/-- The register is a destination of the command that is pending while STATUS.BUSY = 1 (R65). -/
def isInFlight (r : Reg) (s : State) : Bool :=
  s.busy && (match s.pend with
    | some op => isDestination op r
    | none => false)

/-- RegRead (R65): the register's value, or a draw where the pending command is about to write it. -/
def readReg (r : Reg) (s : State) : State :=
  if isInFlight r s then answerDraw s else answer (regValue r s) s

/-- RegWrite to ROUNDS or KEY[i] (R66). -/
def writeLockable (r : Reg) (v : Word) (s : State) : Result :=
  if s.busy then raiseError .busy s
  else if s.locked then raiseError .locked s
  else .next (setReg r v s)

/-- RegWrite to POS_LO, POS_HI, NONCE_LO, NONCE_HI, LEN, Q[i] or DIN[i] (R68). -/
def writeOperand (r : Reg) (v : Word) (s : State) : Result :=
  if s.busy then raiseError .busy s else .next (setReg r v s)

end Sys2Proof.Machine
end

