-- ==== Sys2Proof/Machine/QuarterRound.lean ====
section
/-! DEFINITION. The quarter-round permutation and the QR command (spec/40_quarter_round.md R110 to R113). -/

namespace Sys2Proof.Machine

open Sys2Proof

/-- rotl32(x, n), with n in 1..31 (R110). -/
def rotl32 (x : Word) (n : Nat) : Word := (x <<< n) ||| (x >>> (32 - n))

/-- QRf (R111): each statement reads the values written by the statements before it. -/
def qrf (a b c d : Word) : Word × Word × Word × Word :=
  let a := a + b
  let d := rotl32 (d ^^^ a) 16
  let c := c + d
  let b := rotl32 (b ^^^ c) 12
  let a := a + b
  let d := rotl32 (d ^^^ a) 8
  let c := c + d
  let b := rotl32 (b ^^^ c) 7
  (a, b, c, d)

/-- Q[0..3] after one quarter round of it (R112). -/
def qrRegs (q : Vector Word 4) : Vector Word 4 :=
  let r := qrf q[0] q[1] q[2] q[3]
  #v[r.1, r.2.1, r.2.2.1, r.2.2.2]

/-- QR, the issue part (R112). -/
def execQr (s : State) : Result := issueChecked s fun s => .next (beginLong .qr s)

/-- QR, the completion part (R112). -/
def completeQr (s : State) : State := endLong { s with q := qrRegs s.q }

end Sys2Proof.Machine
end

