-- ==== Sys2Proof/Machine/BlockGenerator.lean ====
section
/-! DEFINITION. The block generator and serializer, and the commands GEN and GENINC (spec/41_block_generator.md R120 to
R142). -/

namespace Sys2Proof.Machine

open Sys2Proof

/-- SIGMA[0..3], row 0 of the initial matrix (R120, D13). -/
def sigma : Vector Word 4 := #v[0x61707865, 0x3320646e, 0x79622d32, 0x6b206574]

/-- init(K, pos, nonce) (R121). -/
def initMatrix (k : Vector Word 8) (pos nonce : DWord) : Matrix :=
  #v[sigma[0], sigma[1], sigma[2], sigma[3],
     k[0], k[1], k[2], k[3],
     k[4], k[5], k[6], k[7],
     lowWord pos, highWord pos, lowWord nonce, highWord nonce]

/-- One quarter round of the four matrix positions i0, i1, i2, i3, which are a, b, c, d (R122, R123, D12). -/
def qrAt (i0 i1 i2 i3 : Fin 16) (m : Matrix) : Matrix :=
  let r := qrf m[i0] m[i1] m[i2] m[i3]
  (((m.set i0 r.1).set i1 r.2.1).set i2 r.2.2.1).set i3 r.2.2.2

/-- The quarter round of column c (R122). -/
def colQr (m : Matrix) (c : Fin 4) : Matrix :=
  qrAt (Fin.ofNat 16 c) (Fin.ofNat 16 (4 + c)) (Fin.ofNat 16 (8 + c)) (Fin.ofNat 16 (12 + c)) m

/-- The quarter round of diagonal j: row r at column (j + r) mod 4 (R123). -/
def diagQr (m : Matrix) (j : Fin 4) : Matrix :=
  qrAt (Fin.ofNat 16 j) (Fin.ofNat 16 (4 + (j + 1) % 4)) (Fin.ofNat 16 (8 + (j + 2) % 4))
    (Fin.ofNat 16 (12 + (j + 3) % 4)) m

/-- The column pass (R122). -/
def colPass (m : Matrix) : Matrix := [0, 1, 2, 3].foldl colQr m

/-- The diagonal pass (R123). -/
def diagPass (m : Matrix) : Matrix := [0, 1, 2, 3].foldl diagQr m

/-- DR, the double-round: the column pass first, then the diagonal pass (R125). -/
def doubleRound (m : Matrix) : Matrix := diagPass (colPass m)

/-- perm(S, n): n double-rounds, with no feed-forward (R127, R128). -/
def perm (m : Matrix) : Nat → Matrix
  | 0 => m
  | n + 1 => perm (doubleRound m) n

/-- ser(S), the 64-byte serialization: row-major, little-endian per word (R63, R130). -/
def ser (m : Matrix) : Vector Byte 64 := Vector.ofFn fun j => bufByte m j

/-- Block64(K, n, pos, nonce) (R132). -/
def block64 (k : Vector Word 8) (n : Nat) (pos nonce : DWord) : Vector Byte 64 := ser (perm (initMatrix k pos nonce) n)

/-- Block(K, n, pos, nonce), the keystream block: bytes 0 to 31 of Block64 (R131, R132, D10). -/
def block (k : Vector Word 8) (n : Nat) (pos nonce : DWord) : Vector Byte 32 :=
  Vector.ofFn fun j => (block64 k n pos nonce)[j.val]'(by omega)

/-- The issue part that GEN and GENINC share (R140, R141). -/
def issueGenerate (op : LongOp) (s : State) : Result :=
  issueChecked s fun s =>
    if s.locked then .next (beginLong op { s with ksv := false }) else raiseError .notConfigured s

/-- The completion part that GEN and GENINC share once POS stands: S <- init, S <- perm, KS <- S, KSV <- 1, and the end
of the command (R140, R141). -/
def generate (s : State) : State :=
  let m := perm (initMatrix s.key s.pos s.nonce) s.roundCount
  endLong { s with mat := m, ks := m, ksv := true }

/-- POS <- POS + 1, modulo 2^64, both halves written (R141, R142). -/
def advancePos (s : State) : State :=
  let p := s.pos + 1
  { s with posLo := lowWord p, posHi := highWord p }

/-- GEN, the issue part (R140). -/
def execGen (s : State) : Result := issueGenerate .gen s

/-- GEN, the completion part (R140). -/
def completeGen (s : State) : State := generate s

/-- GENINC, the issue part (R141). -/
def execGeninc (s : State) : Result := issueGenerate .geninc s

/-- GENINC, the completion part (R141). -/
def completeGeninc (s : State) : State := generate (advancePos s)

end Sys2Proof.Machine
end

