-- ==== Sys2Proof/Machine/Control.lean ====
section
/-! DEFINITION. The construction and control commands: NOP, CFG, CLR, CLRERR (spec/43_control_commands.md R160 to R166).
All four are short: they take effect at issue and never set BUSY (R33). -/

namespace Sys2Proof.Machine

open Sys2Proof

/-- NOP: no effect (R160). -/
def execNop (s : State) : Result := issueChecked s fun s => .next s

/-- CFG: construct, checking LOCKED and then the round count (R162). -/
def execCfg (s : State) : Result :=
  issueChecked s fun s =>
    if s.locked then raiseError .locked s
    else if s.rounds.toInt ≤ 0 then raiseError .badRounds s
    else .next { s with locked := true }

/-- CLR: destroy the transient outputs (R164). -/
def execClr (s : State) : Result :=
  issueChecked s fun s =>
    .next { s with ks := Vector.replicate 16 0, dout := Vector.replicate 8 0, ksv := false }

/-- CLRERR: clear the error record (R166). -/
def execClrerr (s : State) : Result := issueChecked s fun s => .next { s with err := .none }

end Sys2Proof.Machine
end

