-- ==== Sys2Proof/Machine/KeystreamXor.lean ====
section
/-! DEFINITION. The keystream-XOR datapath and the XOR command (spec/42_keystream_xor.md R150 to R153). -/

namespace Sys2Proof.Machine

open Sys2Proof

/-- dout(j) (R150): din(j) ^ ks(j) for j < LEN, else 0x00. Only j in 0..31 is used. -/
def xorLane (len : Word) (din : Vector Word 8) (ks : Vector Word 16) (j : Nat) : Byte :=
  if j < len.toNat then byteOf (din.getD (j / 4) 0) (j % 4) ^^^ byteOf (ks.getD (j / 4) 0) (j % 4) else 0

/-- DOUT[0..7] of the XOR command (R150). KS[8..15] is never read. -/
def xorBlock (len : Word) (din : Vector Word 8) (ks : Vector Word 16) : Vector Word 8 :=
  packWords 8 (xorLane len din ks)

/-- XOR, the issue part: NO_KEYSTREAM, then BAD_LEN, LEN read as unsigned (R150). -/
def execXor (s : State) : Result :=
  issueChecked s fun s =>
    if !s.ksv then raiseError .noKeystream s
    else if 32 < s.len.toNat then raiseError .badLen s
    else .next (beginLong .xor s)

/-- XOR, the completion part (R150). -/
def completeXor (s : State) : State := endLong { s with dout := xorBlock s.len s.din s.ks }

end Sys2Proof.Machine
end

