-- ==== Sys2Proof/Machine/Dispatch.lean ====
section
/-! DEFINITION. One arm per command: the issue part of the command's rule, its issue check of spec/60_exceptions.md R202
included. The completion parts of long commands are run by the engine's own step (Machine/Bus.lean, R240). -/

namespace Sys2Proof.Machine

open Sys2Proof

def exec (i : Instr) (s : State) : Host.Outcome State Fault Refusal :=
  match i with
  | .nop => Sys2Proof.Machine.execNop s
  | .cfg => Sys2Proof.Machine.execCfg s
  | .gen => Sys2Proof.Machine.execGen s
  | .geninc => Sys2Proof.Machine.execGeninc s
  | .xor => Sys2Proof.Machine.execXor s
  | .qr => Sys2Proof.Machine.execQr s
  | .clr => Sys2Proof.Machine.execClr s
  | .clrerr => Sys2Proof.Machine.execClrerr s

end Sys2Proof.Machine
end

