-- ==== Sys2Proof/Machine/Bus.lean ====
section
/-! DEFINITION. The host interface and the engine agent: issuing a command word (spec/60_exceptions.md R202), register
reads and writes at offsets of the window (spec/20_memory.md R60 to R69), the completion step
(spec/70_reset_and_hazards.md R240) and reset (R230, R231). -/

namespace Sys2Proof.Machine

open Sys2Proof

/-- issue(w) (R202): BUSY, then ILLEGAL_CMD, then the command's own checks and effect. The BUSY check stands in both
branches (issueChecked), so it comes before what the word decodes to can matter. -/
def issue (w : Word) (s : State) : Result :=
  match decode w with
  | .ok i => exec i s
  | .error _ => issueIllegal s

/-- RegWrite(off, v) to the register at that offset (R66 to R69). -/
def writeReg (r : Reg) (v : Word) (s : State) : Result :=
  match r with
  | .cmd => issue v s
  | .status => .next s
  | .rounds => writeLockable .rounds v s
  | .key i => writeLockable (.key i) v s
  | .posLo => writeOperand .posLo v s
  | .posHi => writeOperand .posHi v s
  | .nonceLo => writeOperand .nonceLo v s
  | .nonceHi => writeOperand .nonceHi v s
  | .len => writeOperand .len v s
  | .q i => writeOperand (.q i) v s
  | .din i => writeOperand (.din i) v s
  | .dout _ => .next s
  | .ks _ => .next s
  | .reserved => .next s

/-- Why an access has no step, if it has none (R62). -/
def accessRefusal (off : Int) (n : Nat) : Option Refusal :=
  if !accessWidthOk n then some .accessWidth
  else if !offsetInWindow off then some .beyondWindow
  else if !offsetAligned off then some .misaligned
  else none

/-- One host access (R62, R65 to R69): an access outside the interface is refused, any other takes its step. -/
def hostAccess (a : Access) (s : State) : Result :=
  match a with
  | .read off n =>
    match accessRefusal off n with
    | some r => .refused r
    | none => .next (readReg (regAt off.toNat) s)
  | .write off n v =>
    match accessRefusal off n with
    | some r => .refused r
    | none => writeReg (regAt off.toNat) v s

/-- MemRead(addr, n) at a bus address (R17, R60). -/
def memRead (addr n : Nat) : Access := .read ((addr : Int) - Config.base) n

/-- MemWrite(addr, n, v) at a bus address (R17, R60). -/
def memWrite (addr n : Nat) (v : Word) : Access := .write ((addr : Int) - Config.base) n v

/-- RegRead(off) = MemRead(BASE + off, 4) (R17). -/
def regRead (off : Nat) : Access := .read off 4

/-- RegWrite(off, v) = MemWrite(BASE + off, 4, v) (R17). -/
def regWrite (off : Nat) (v : Word) : Access := .write off 4 v

/-- The engine agent's step: the completion part of the pending command (R240). It has one exactly when PEND is not
NONE; otherwise nothing happens. -/
def engineStep (s : State) : State :=
  match s.pend with
  | none => s
  | some .gen => completeGen s
  | some .geninc => completeGeninc s
  | some .xor => completeXor s
  | some .qr => completeQr s

/-- Every register at its reset value and PEND = NONE (R44, R230); what the host has asked for and been answered is not
the engine's and stays. -/
def resetRegisters (s : State) : State :=
  { State.reset with inputs := s.inputs, draws := s.draws, replies := s.replies }

/-- The reset step (R230) with the host access that overlaps it, if any (R231): the access has no effect, and a read
within the interface is answered by a draw. -/
def resetStep (overlap : Option Access) (s : State) : State :=
  match overlap with
  | none => resetRegisters s
  | some (.write _ _ _) => resetRegisters s
  | some (.read off n) =>
    match accessRefusal off n with
    | some _ => resetRegisters s
    | none => answerDraw (resetRegisters s)

/-- One atomic step of the total order (R73). -/
def takeInput (i : Input) (s : State) : Result :=
  match i with
  | .host a => hostAccess a s
  | .engine => .next (engineStep s)
  | .reset overlap => .next (resetStep overlap s)

/-- The step when no input stands: a pending command completes (R241), an idle engine keeps its state (R225). -/
def quietStep (s : State) : Result := .next (engineStep s)

end Sys2Proof.Machine
end

