-- ==== Sys2Proof/Machine/Step.lean ====
section
/-! DEFINITION. The step: the oldest input of the total order takes effect (spec/20_memory.md R73), and where none stands
the engine's own step does (spec/70_reset_and_hazards.md R240, R241). -/

namespace Sys2Proof.Machine

open Sys2Proof

/-- One step. -/
def step (s : State) : Host.Outcome State Fault Refusal :=
  match s.inputs with
  | [] => quietStep s
  | i :: rest => takeInput i { s with inputs := rest }

/-- s with the host's write of a command word to CMD standing first in the order, which is where the engine takes its
next command from (R67, R76). -/
def State.withFetchWord (s : State) (nbits w : Nat) : State :=
  { s with inputs := .host (regWrite 0 (tableWord nbits w)) :: s.inputs }

end Sys2Proof.Machine
end

