-- ==== Sys2Proof/Machine/Driver.lean ====
section
/-! DEFINITION. The stream driver as the spec gives it: pure host reference procedures over the block function
(spec/45_stream_driver.md R180 to R189). They are host software, no part of the engine (spec/00_scope.md R6). -/

namespace Sys2Proof.Machine

open Sys2Proof

/-- The errors the host raises itself (R180, R184, R200). -/
inductive HostError where
  /-- MalformedKey: the key does not supply exactly eight words (R180). -/
  | malformedKey
  /-- NonPositiveRounds: CFG answered BAD_ROUNDS (R180). -/
  | nonPositiveRounds
  /-- NonceUnderrun: fewer nonces than blocks (R184). -/
  | nonceUnderrun
deriving DecidableEq, Repr

/-- nblocks = ceil(size / 32) (R181). -/
def nblocks (size : Nat) : Nat := (size + 31) / Config.ksBytes

/-- len_i = min(32, size - 32*i) (R181). -/
def blockLen (size i : Nat) : Nat := min Config.ksBytes (size - Config.ksBytes * i)

/-- One block: each byte there is, XORed with the byte of the keystream at its place, so a final partial block is cut to
its own length (R182, R184, R185). -/
def cryptChunk (ks : Vector Byte 32) (chunk : List Byte) : List Byte := List.zipWith (· ^^^ ·) chunk ks.toList

/-- Blocks i, ..., i+m-1 of a buffer whose block i begins with the first byte of data, block j with the keystream
ksOf j. -/
def cryptBlocks (ksOf : Nat → Vector Byte 32) : Nat → Nat → List Byte → List Byte
  | 0, _, _ => []
  | m + 1, i, data => cryptChunk (ksOf i) (data.take Config.ksBytes) ++ cryptBlocks ksOf m (i + 1) (data.drop Config.ksBytes)

/-- A whole buffer, block i with the keystream ksOf i: what the procedures below compute, said without their running
variables (R181, R182). -/
def cryptBuffer (ksOf : Nat → Vector Byte 32) (data : List Byte) : List Byte :=
  cryptBlocks ksOf (nblocks data.length) 0 data

/-- What a procedure does for block i before that block's keystream: from its running variables it gives the position and
the nonce of the block, and its variables after. -/
abbrev BlockSource (σ : Type) := Nat → σ → (DWord × DWord) × σ

/-- The loop that R182, R184 and R185 share, over blocks i, ..., i+m-1 of a buffer whose block i begins with the first
byte of data: the output, and the running variables after it. -/
def streamBlocks {σ : Type} (k : Vector Word 8) (n : Nat) (next : BlockSource σ) : Nat → Nat → List Byte → σ → List Byte × σ
  | 0, _, _, v => ([], v)
  | m + 1, i, data, v =>
    let b := next i v
    let out := cryptChunk (block k n b.1.1 b.1.2) (data.take Config.ksBytes)
    let r := streamBlocks k n next m (i + 1) (data.drop Config.ksBytes) b.2
    (out ++ r.1, r.2)

/-- The running variables of an encryption (R182): the position counter, the sink if there is one, and how many times
nonceSource has been called (R186, notes/assumptions 13). -/
structure EncryptVars where
  pos : DWord
  sink : Option (List DWord)
  calls : Nat
deriving DecidableEq, Repr

/-- Before each block of an encryption: the counter is advanced modulo 2^64; with a sink the nonce is a fresh draw of
nonceSource, and is appended to the sink; without one it is 0 and nothing is drawn (R182). -/
def encryptNext : BlockSource EncryptVars := fun _ v =>
  let pos := v.pos + 1
  match v.sink with
  | none => ((pos, 0), { v with pos := pos })
  | some sink =>
    let nonce := Config.nonceSource v.calls
    ((pos, nonce), { pos := pos, sink := some (sink ++ [nonce]), calls := v.calls + 1 })

/-- encrypt(data, startPosition, sink) for key k and n double-rounds: the output, and the sink after it (R182). calls is
how many times nonceSource has been called before. -/
def encrypt (k : Vector Word 8) (n : Nat) (data : List Byte) (start : DWord) (sink : Option (List DWord)) (calls : Nat) :
    List Byte × Option (List DWord) :=
  let r := streamBlocks k n encryptNext (nblocks data.length) 0 data { pos := start, sink := sink, calls := calls }
  (r.1, r.2.sink)

/-- Before block i of a decryption: the counter is advanced modulo 2^64, and the nonce is entry i of the sequence, or 0
without one (R184). The variable is the counter. -/
def decryptNext (nonces : Option (List DWord)) : BlockSource DWord := fun i pos =>
  let pos := pos + 1
  match nonces with
  | none => ((pos, 0), pos)
  | some ns => ((pos, ns.getD i 0), pos)

/-- The nonces of a decryption are fewer than its blocks: NonceUnderrun, looked at before the first block (R184, D37). -/
def nonceUnderrun (nonces : Option (List DWord)) (size : Nat) : Bool :=
  match nonces with
  | none => false
  | some ns => ns.length < nblocks size

/-- decrypt(data, startPosition, nonces): on a nonce underrun there is no output (R184). -/
def decrypt (k : Vector Word 8) (n : Nat) (data : List Byte) (start : DWord) (nonces : Option (List DWord)) :
    Except HostError (List Byte) :=
  if nonceUnderrun nonces data.length then .error .nonceUnderrun
  else .ok (streamBlocks k n (decryptNext nonces) (nblocks data.length) 0 data start).1

/-- A generator of positions or nonces (R185): called with a block index, it answers a u64 and may change what it
remembers. Both generators of a call remember in one σ, so the order of their calls is part of what they answer. -/
abbrev Generator (σ : Type) := Nat → σ → DWord × σ

/-- Before block i: posGen is called once, then nonceGen once (R185, D36). The position is used as returned. -/
def generatorNext {σ : Type} (posGen nonceGen : Generator σ) : BlockSource σ := fun i g =>
  let p := posGen i g
  let u := nonceGen i p.2
  ((p.1, u.1), u.2)

/-- encrypt(data, positionGenerator, nonceGenerator): the output, and what the generators remember after it (R185). -/
def encryptGen {σ : Type} (k : Vector Word 8) (n : Nat) (data : List Byte) (posGen nonceGen : Generator σ) (g : σ) :
    List Byte × σ :=
  streamBlocks k n (generatorNext posGen nonceGen) (nblocks data.length) 0 data g

end Sys2Proof.Machine
end

