-- ==== Sys2Proof/Machine/HostOps.lean ====
section
/-! DEFINITION. The host's programs on the engine: the assembler's lines and pseudo-instructions (spec/30_encoding.md R96,
R97), what they do when the host runs them, and the engine realisations of the host procedures (spec/45_stream_driver.md
R180, R183, R184, R185). The lines go through step like every other input. -/

namespace Sys2Proof.Machine

open Sys2Proof

/-- A line of a host program: a bus operation, WR or RD (R96), or WAIT (R97), a loop of the host. When the engine takes its
turn is not the host's to say: wait polls is the WAIT in which it comes after that many reads of STATUS
(notes/assumptions 15). -/
inductive Line where
  | bus (a : Access)
  | wait (polls : Nat)
deriving DecidableEq, Repr

/-- WR reg, imm32 (R96). -/
def wr (r : Reg) (v : Word) : Line := .bus (regWrite r.offset v)

/-- RD reg (R96). -/
def rd (r : Reg) : Line := .bus (regRead r.offset)

/-- NOP, CFG, GEN, ... as a line: WR CMD, its word (R97). -/
def issueLine (i : Instr) : Line := wr .cmd (encode i)

/-- SETPOS v64 (R97). -/
def setPosLines (v : DWord) : List Line := [wr .posLo (lowWord v), wr .posHi (highWord v)]

/-- SETNONCE v64 (R97). -/
def setNonceLines (v : DWord) : List Line := [wr .nonceLo (lowWord v), wr .nonceHi (highWord v)]

/-- SETKEY k0,...,k7, in index order (R97). -/
def setKeyLines (k : Vector Word 8) : List Line := List.ofFn fun i : Fin 8 => wr (.key i) k[i]

/-- The eight words LOADDIN writes: bytes packed little-endian, bytes at or past n as 0 (R97, R18). -/
def dinWords (bytes : List Byte) : Vector Word 8 := packWords 8 fun j => bytes.getD j 0

/-- LOADDIN b0..bn-1, n <= 32 (R97). -/
def loadDinLines (bytes : List Byte) : List Line := List.ofFn fun i : Fin 8 => wr (.din i) (dinWords bytes)[i]

/-- RD DOUT0 .. DOUT7 (R183). -/
def readDoutLines : List Line := List.ofFn fun i : Fin 8 => rd (.dout i)

/-! ### Running a host program -/

/-- Go on after a next state; a stop stays a stop. -/
def andThen {α β : Type} (r : Host.Outcome α Fault Refusal) (f : α → Host.Outcome β Fault Refusal) :
    Host.Outcome β Fault Refusal :=
  match r with
  | .next a => f a
  | .fault e => .fault e
  | .refused e => .refused e

/-- The step that takes the input i next, before every input that stands. -/
def takeNext (i : Input) (s : State) : Result := step { s with inputs := i :: s.inputs }

/-- What the host's last read answered. -/
def lastAnswer (s : State) : Word := s.replies.headD 0

/-- WAIT: read STATUS until bit 0 is 0 (R97), the engine's turn coming after polls reads unless the loop is over before. The
read after that turn ends the loop, because the turn leaves BUSY = 0 (R240). -/
def waitLoop : Nat → State → Result
  | 0, s => andThen (takeNext .engine s) (takeNext (.host (regRead Reg.status.offset)))
  | polls + 1, s =>
    andThen (takeNext (.host (regRead Reg.status.offset)) s) fun t =>
      if (lastAnswer t).getLsbD 0 then waitLoop polls t else .next t

/-- One line. -/
def runLine (l : Line) (s : State) : Result :=
  match l with
  | .bus a => takeNext (.host a) s
  | .wait polls => waitLoop polls s

/-- A host program: its lines in order (R77, R98). -/
def runLines : List Line → State → Result
  | [], s => .next s
  | l :: ls, s => andThen (runLine l s) (runLines ls)

/-! ### Construction (R180) -/

/-- The lines of new(key, rounds): a malformed key fails on the host's side with nothing written; else the key words, the
round count modulo 2^32, CFG and the read of STATUS (R180). -/
def newLines (key : List Word) (rounds : Int := 10) : Except HostError (List Line) :=
  if key.length ≠ 8 then .error .malformedKey
  else .ok (setKeyLines (Vector.ofFn fun i => key.getD i 0) ++
    [wr .rounds (BitVec.ofInt 32 rounds), issueLine .cfg, rd .status])

/-- What new answers once it has read STATUS: it fails when STATUS.ERR is BAD_ROUNDS (R180). -/
def newOutcome (status : Word) : Except HostError Unit :=
  if status.extractLsb' 8 4 = ErrCode.code .badRounds then .error .nonPositiveRounds else .ok ()

/-- new(key, rounds) on the engine: what it answers its caller, and the state it leaves (R180). -/
def newOnEngine (key : List Word) (s : State) (rounds : Int := 10) :
    Host.Outcome (Except HostError Unit × State) Fault Refusal :=
  match newLines key rounds with
  | .error e => .next (.error e, s)
  | .ok ls => andThen (runLines ls s) fun t => .next (newOutcome (lastAnswer t), t)

/-! ### Buffers (R183, R184, R185) -/

/-- The XOR steps of one block, up to the reads of DOUT (R183). -/
def xorLines (bytes : List Byte) (polls : Nat) : List Line :=
  loadDinLines bytes ++ [wr .len (BitVec.ofNat 32 bytes.length), issueLine .xor, .wait polls] ++ readDoutLines

/-- The lines of one block, from its position and nonce, its bytes, and the reads its two WAITs make before the engine's
turn. -/
abbrev BlockLines := DWord × DWord → List Byte → Nat × Nat → List Line

/-- One block with the running counter: GENINC advances POS itself, so only the nonce is written (R183, R184). -/
def runningBlockLines : BlockLines := fun b bytes polls =>
  setNonceLines b.2 ++ [issueLine .geninc, .wait polls.1] ++ xorLines bytes polls.2

/-- One block with generated position and nonce (R185). -/
def generatedBlockLines : BlockLines := fun b bytes polls =>
  setPosLines b.1 ++ setNonceLines b.2 ++ [issueLine .gen, .wait polls.1] ++ xorLines bytes polls.2

/-- The four bytes of a word, byte 0 first (R18). -/
def wordBytes (w : Word) : List Byte := [byteOf w 0, byteOf w 1, byteOf w 2, byteOf w 3]

/-- What the host keeps of its last eight reads, those of DOUT0 to DOUT7: bytes 0 to len - 1 only (R183). -/
def keptBytes (len : Nat) (s : State) : List Byte := ((s.replies.take 8).reverse.flatMap wordBytes).take len

/-- The loop over blocks i, ..., i+m-1 on the engine (R183, R184, R185): for each, what next does on the host's side, the
block's lines, and the bytes kept. Answers the output, the running variables after it, and the state it leaves. The
WAITs of block i make (waits i).1 and (waits i).2 reads before the engine's turn. -/
def engineBlocks {σ : Type} (next : BlockSource σ) (lines : BlockLines) (waits : Nat → Nat × Nat) :
    Nat → Nat → List Byte → σ → State → Host.Outcome (List Byte × σ × State) Fault Refusal
  | 0, _, _, v, s => .next ([], v, s)
  | m + 1, i, data, v, s =>
    let b := next i v
    let bytes := data.take Config.ksBytes
    andThen (runLines (lines b.1 bytes (waits i)) s) fun t =>
      andThen (engineBlocks next lines waits m (i + 1) (data.drop Config.ksBytes) b.2 t) fun r =>
        .next (keptBytes bytes.length t ++ r.1, r.2)

/-- encrypt(data, startPosition, sink) on the constructed engine: the output, the sink after it, and the state it leaves
(R183). -/
def encryptOnEngine (data : List Byte) (start : DWord) (sink : Option (List DWord)) (calls : Nat)
    (waits : Nat → Nat × Nat) (s : State) : Host.Outcome (List Byte × Option (List DWord) × State) Fault Refusal :=
  andThen (runLines (setPosLines start) s) fun t =>
    andThen (engineBlocks encryptNext runningBlockLines waits (nblocks data.length) 0 data
      { pos := start, sink := sink, calls := calls } t) fun r => .next (r.1, r.2.1.sink, r.2.2)

/-- decrypt(data, startPosition, nonces) on the constructed engine (R184): on a nonce underrun no line runs. -/
def decryptOnEngine (data : List Byte) (start : DWord) (nonces : Option (List DWord)) (waits : Nat → Nat × Nat)
    (s : State) : Host.Outcome (Except HostError (List Byte) × State) Fault Refusal :=
  if nonceUnderrun nonces data.length then .next (.error .nonceUnderrun, s)
  else
    andThen (runLines (setPosLines start) s) fun t =>
      andThen (engineBlocks (decryptNext nonces) runningBlockLines waits (nblocks data.length) 0 data start t) fun r =>
        .next (.ok r.1, r.2.2)

/-- encrypt(data, positionGenerator, nonceGenerator) on the constructed engine: the output, what the generators remember
after it, and the state it leaves (R185). -/
def encryptGenOnEngine {σ : Type} (data : List Byte) (posGen nonceGen : Generator σ) (g : σ) (waits : Nat → Nat × Nat)
    (s : State) : Host.Outcome (List Byte × σ × State) Fault Refusal :=
  engineBlocks (generatorNext posGen nonceGen) generatedBlockLines waits (nblocks data.length) 0 data g s

end Sys2Proof.Machine
end

