-- ==== Sys2Proof/Safety.lean ====
section
/-! DEFINITION. What the claims call a good state and a good order of inputs: the invariant every step keeps, and the
accesses that lie within the interface. -/

namespace Sys2Proof.Machine

open Sys2Proof

/-- The state relations the spec gives the engine. -/
structure Inv (s : State) : Prop where
  /-- PEND is not NONE exactly when STATUS.BUSY = 1 (R40). -/
  busy_iff_pending : s.busy = true ↔ s.pend ≠ none
  /-- A constructed engine holds a legal round count (R127, R162). -/
  locked_rounds_positive : s.locked = true → 0 < s.rounds.toInt
  /-- A pending GEN or GENINC was accepted by a constructed engine, and cleared KSV (R35, R140, R141). -/
  generating : s.pend = some .gen ∨ s.pend = some .geninc → s.locked = true ∧ s.ksv = false
  /-- A pending XOR was accepted with KSV = 1 and LEN <= 32 (R150), and neither changes while it is pending (R205). -/
  xoring : s.pend = some .xor → s.ksv = true ∧ s.len.toNat ≤ 32
  /-- A valid keystream was generated by a constructed engine (R35, R140). -/
  ksv_locked : s.ksv = true → s.locked = true
  /-- While KSV = 1, KS holds the result of a GEN or GENINC with the engine's key and round count (R32, R35). -/
  ksv_keystream : s.ksv = true →
    ∃ pos nonce : DWord, s.ks = perm (initMatrix s.key pos nonce) s.rounds.toInt.toNat

/-- The access lies within the interface (R62). -/
def Access.ok : Access → Bool
  | .read off n => accessOk off n
  | .write off n _ => accessOk off n

/-- Every host access of the input lies within the interface. -/
def Input.ok : Input → Bool
  | .host a => a.ok
  | .engine => true
  | .reset _ => true

/-- The input is the platform's reset. -/
def Input.isReset : Input → Bool
  | .host _ => false
  | .engine => false
  | .reset _ => true

/-- The input is the host's write of the word w to CMD (R67). -/
def Input.isCommandWord (w : Word) : Input → Bool
  | .host (.write off n v) => accessOk off n && off == 0 && v == w
  | .host (.read _ _) => false
  | .engine => false
  | .reset _ => false

end Sys2Proof.Machine
end

