-- ==== Sys2Proof/Certificates/Slice0/Obligations.lean ====
section
/-! DEFINITION. The statements for the provers, from the numbered rules of spec/. -/

open Sys2Proof Sys2Proof.Machine

/-! ### Reset -/

/-- R44: the values after reset. S is unspecified there and nothing is said of it. -/
def Obligations.ResetValues : Prop :=
  State.reset.rounds = 0x0000000A ∧ (∀ i : Fin 8, State.reset.key[i] = 0) ∧
  State.reset.posLo = 0 ∧ State.reset.posHi = 0 ∧ State.reset.nonceLo = 0 ∧ State.reset.nonceHi = 0 ∧
  State.reset.len = 0 ∧ (∀ i : Fin 4, State.reset.q[i] = 0) ∧ (∀ i : Fin 8, State.reset.din[i] = 0) ∧
  (∀ i : Fin 8, State.reset.dout[i] = 0) ∧ (∀ i : Fin 16, State.reset.ks[i] = 0) ∧
  statusWord State.reset = 0 ∧ State.reset.busy = false ∧ State.reset.locked = false ∧ State.reset.ksv = false ∧
  State.reset.err = .none ∧ State.reset.pend = none

/-- R230: the reset step sets every register to its reset value and PEND to NONE, whatever is pending, and nothing but
that step clears LOCKED. The host's remaining inputs stand (the model's own field, log entry 1). -/
def Obligations.ResetStepRestoresEveryRegister : Prop :=
  (∀ (s : State) (rest : List Input), s.inputs = .reset none :: rest →
    ∃ t, step s = .next t ∧
      (∀ r : Reg, regValue r t = regValue r State.reset) ∧ t.key = Vector.replicate 8 0 ∧
      t.busy = false ∧ t.locked = false ∧ t.ksv = false ∧ t.err = .none ∧ t.pend = none ∧ t.inputs = rest) ∧
  (∀ s t : State, step s = .next t → s.locked = true → t.locked = false →
    ∃ overlap rest, s.inputs = .reset overlap :: rest)

/-- R231: a host access that overlaps the reset step has no effect, and a read within the interface that overlaps it is
answered by a draw (Config.draw, the free value Draw()). That a malformed write which overlaps reset is lost too is the
model's choice (log entry 7); where the answer and the number of draws stand is the model's (log entries 3 and 4). -/
def Obligations.AccessOverlappingResetIsLost : Prop :=
  ∀ (s : State) (rest : List Input),
    (∀ off n v, s.inputs = .reset (some (.write off n v)) :: rest →
      step s = step { s with inputs := .reset none :: rest }) ∧
    (∀ off n, accessOk off n = true → s.inputs = .reset (some (.read off n)) :: rest →
      ∃ t, step { s with inputs := .reset none :: rest } = .next t ∧
        step s = .next { t with replies := Config.draw s.draws :: s.replies, draws := s.draws + 1 })

/-! ### Encoding, decoding and issue -/

/-- R95: decode, by the fields RSVD (bits 31:8) and OP (bits 7:0) of the word. -/
def Obligations.DecodeByFields : Prop :=
  ∀ w : Word,
    (w.extractLsb' 8 24 ≠ 0 → ∃ e, decode w = .error e) ∧
    (w.extractLsb' 8 24 = 0 →
      (w.extractLsb' 0 8 = 0x00 → decode w = .ok .nop) ∧ (w.extractLsb' 0 8 = 0x01 → decode w = .ok .cfg) ∧
      (w.extractLsb' 0 8 = 0x02 → decode w = .ok .gen) ∧ (w.extractLsb' 0 8 = 0x03 → decode w = .ok .geninc) ∧
      (w.extractLsb' 0 8 = 0x04 → decode w = .ok .xor) ∧ (w.extractLsb' 0 8 = 0x05 → decode w = .ok .qr) ∧
      (w.extractLsb' 0 8 = 0x06 → decode w = .ok .clr) ∧ (w.extractLsb' 0 8 = 0x07 → decode w = .ok .clrerr) ∧
      (0x08 ≤ (w.extractLsb' 0 8).toNat → ∃ e, decode w = .error e))

/-- R92: each command has exactly one legal word, so decode and encode agree in both directions, for all 2^32 words. -/
def Obligations.EachCommandHasExactlyOneWord : Prop :=
  ∀ (w : Word) (i : Instr), decode w = .ok i ↔ w = encode i

/-- R94: a word is illegal exactly when OP is in 0x08 to 0xFF or RSVD is not 0, and every word that is no row of R92 is;
written to CMD of an engine that is not busy it raises ILLEGAL_CMD and does nothing else, as a write and as a step. -/
def Obligations.IllegalWordRaisesIllegalCmd : Prop :=
  ∀ w : Word,
    ((0x08 ≤ (w.extractLsb' 0 8).toNat ∨ w.extractLsb' 8 24 ≠ 0) ↔ ∀ i : Instr, w ≠ encode i) ∧
    (∀ (s : State) (rest : List Input), s.busy = false →
      (0x08 ≤ (w.extractLsb' 0 8).toNat ∨ w.extractLsb' 8 24 ≠ 0) →
      writeReg .cmd w s = .next (setErr .illegalCmd s) ∧
      step { s with inputs := .host (regWrite 0x000 w) :: rest } =
        .next (setErr .illegalCmd { s with inputs := rest }))

/-- The words of R92, written out, decode to their commands, and three words R94 calls illegal do not decode. -/
def Obligations.TableWordsDecode : Prop :=
  decodeTableWord 32 0x00000000 = some .nop ∧ decodeTableWord 32 0x00000001 = some .cfg ∧
  decodeTableWord 32 0x00000002 = some .gen ∧ decodeTableWord 32 0x00000003 = some .geninc ∧
  decodeTableWord 32 0x00000004 = some .xor ∧ decodeTableWord 32 0x00000005 = some .qr ∧
  decodeTableWord 32 0x00000006 = some .clr ∧ decodeTableWord 32 0x00000007 = some .clrerr ∧
  decodeTableWord 32 0x00000008 = none ∧ decodeTableWord 32 0x000000FF = none ∧ decodeTableWord 32 0x00000102 = none

/-- A step runs the decoded command: when the next input is the host's write to CMD of a word that decodes to i, the step
is exec of i on the state past that input, and withFetchWord places exactly such a write. -/
def Obligations.StepRunsTheDecodedCommand : Prop :=
  (∀ (s : State) (w : Word) (rest : List Input) (i : Instr), decode w = .ok i →
    s.inputs = .host (regWrite 0x000 w) :: rest → step s = exec i { s with inputs := rest }) ∧
  (∀ (s : State) (i : Instr), step (s.withFetchWord 32 (encode i).toNat) = exec i s)

/-! ### Errors -/

/-- R204: ERR keeps the first error; nothing else is recorded. -/
def Obligations.FirstErrorIsKept : Prop :=
  ∀ (c : ErrCode) (s : State),
    (s.err = .none → setErr c s = { s with err := c }) ∧ (s.err ≠ .none → setErr c s = s)

/-- R243: while BUSY = 1 every write to CMD, whatever the word, and to every writable register raises BUSY and has no
other effect. The second part says so of the step, by the offsets of R61: CMD, ROUNDS, KEY to LEN, Q and DIN. -/
def Obligations.WriteWhileBusyIsDropped : Prop :=
  ∀ (s : State) (v : Word), s.busy = true →
    (∀ r : Reg, (r = .cmd ∨ r = .rounds ∨ (∃ i, r = .key i) ∨ r = .posLo ∨ r = .posHi ∨ r = .nonceLo ∨ r = .nonceHi ∨
        r = .len ∨ (∃ i, r = .q i) ∨ (∃ i, r = .din i)) →
      writeReg r v s = .next (setErr .busy s)) ∧
    (∀ (off : Nat) (rest : List Input), off % 4 = 0 →
      (off = 0x000 ∨ off = 0x008 ∨ (0x010 ≤ off ∧ off ≤ 0x040) ∨ (0x050 ≤ off ∧ off ≤ 0x07C)) →
      step { s with inputs := .host (regWrite off v) :: rest } = .next (setErr .busy { s with inputs := rest }))

/-- R36, R166, R230: over one whole step, ERR changes only from 0 to a code, or to 0 by CLRERR on an engine that is not
busy or by reset. -/
def Obligations.ErrChangesOnlyBySetErrClrerrAndReset : Prop :=
  ∀ s t : State, step s = .next t → t.err ≠ s.err →
    s.err = .none ∨
    (t.err = .none ∧ ∃ i rest, s.inputs = i :: rest ∧
      (i.isReset = true ∨ (s.busy = false ∧ i.isCommandWord (encode .clrerr) = true)))

/-! ### The commands -/

/-- R160: NOP changes nothing; on a busy engine it raises BUSY. -/
def Obligations.NopChangesNothing : Prop :=
  ∀ s : State,
    (s.busy = false → exec .nop s = .next s) ∧ (s.busy = true → exec .nop s = .next (setErr .busy s))

/-- R162: CFG locks the key and round count of an unconstructed engine when ROUNDS is neither 0 nor has bit 31 set, and
changes nothing else; LOCKED is raised before BAD_ROUNDS. -/
def Obligations.CfgConstructsOrRaises : Prop :=
  ∀ s : State,
    (s.busy = false → s.locked = false → s.rounds ≠ 0 → s.rounds.getLsbD 31 = false →
      exec .cfg s = .next { s with locked := true }) ∧
    (s.busy = false → s.locked = true → exec .cfg s = .next (setErr .locked s)) ∧
    (s.busy = false → s.locked = false → (s.rounds = 0 ∨ s.rounds.getLsbD 31 = true) →
      exec .cfg s = .next (setErr .badRounds s)) ∧
    (s.busy = true → exec .cfg s = .next (setErr .busy s))

/-- R164: CLR zeroes KS and DOUT, clears KSV and changes nothing else, constructed or not; an XOR after it raises
NO_KEYSTREAM. -/
def Obligations.ClrDestroysTheOutputs : Prop :=
  ∀ s : State,
    (s.busy = false →
      ∃ t, exec .clr s = .next t ∧ t = { s with ks := t.ks, dout := t.dout, ksv := false } ∧
        (∀ i : Fin 16, t.ks[i] = 0) ∧ (∀ i : Fin 8, t.dout[i] = 0) ∧
        exec .xor t = .next (setErr .noKeystream t)) ∧
    (s.busy = true → exec .clr s = .next (setErr .busy s))

/-- R166: CLRERR clears ERR and changes nothing else; on a busy engine with an error recorded it changes nothing. -/
def Obligations.ClrerrClearsTheErrorRecord : Prop :=
  ∀ s : State,
    (s.busy = false → exec .clrerr s = .next { s with err := .none }) ∧
    (s.busy = true → exec .clrerr s = .next (setErr .busy s)) ∧
    (s.busy = true → s.err ≠ .none → exec .clrerr s = .next s)

/-- R112: QR is accepted by any engine that is not busy, constructed or not; its completion replaces Q[0..3] by the
quarter round of them and changes nothing else. -/
def Obligations.QrIssuesAndCompletes : Prop :=
  ∀ s : State,
    (s.busy = false →
      ∃ t u, exec .qr s = .next t ∧ t = { s with busy := true, pend := some .qr } ∧ engineStep t = u ∧
        u = { s with q := u.q, busy := false, pend := none } ∧
        (u.q[0], u.q[1], u.q[2], u.q[3]) = qrf s.q[0] s.q[1] s.q[2] s.q[3]) ∧
    (s.busy = true → exec .qr s = .next (setErr .busy s))

/-- R140: GEN on a constructed engine that is not busy clears KSV and waits; its completion puts the words of
perm(init(KEY, POS, NONCE), s32(ROUNDS)) into KS, sets KSV and leaves POS, NONCE and every other register. Unconstructed
it raises NOT_CONFIGURED and changes nothing else. -/
def Obligations.GenIssuesAndCompletes : Prop :=
  ∀ s : State,
    (s.busy = false → s.locked = true →
      ∃ t u, exec .gen s = .next t ∧ t = { s with ksv := false, busy := true, pend := some .gen } ∧
        engineStep t = u ∧
        u = { s with mat := u.mat, ks := u.ks, ksv := true, busy := false, pend := none } ∧
        u.ks = perm (initMatrix s.key (join64 s.posHi s.posLo) (join64 s.nonceHi s.nonceLo)) s.rounds.toInt.toNat) ∧
    (s.busy = false → s.locked = false → exec .gen s = .next (setErr .notConfigured s)) ∧
    (s.busy = true → exec .gen s = .next (setErr .busy s))

/-- R141, R142: GENINC is GEN at the position after POS, counted modulo 2^64 without an error, and leaves that position
in POS. -/
def Obligations.GenincIssuesAndCompletes : Prop :=
  ∀ s : State,
    (s.busy = false → s.locked = true →
      ∃ t u, exec .geninc s = .next t ∧ t = { s with ksv := false, busy := true, pend := some .geninc } ∧
        engineStep t = u ∧
        u = { s with posLo := u.posLo, posHi := u.posHi, mat := u.mat, ks := u.ks, ksv := true, busy := false,
                     pend := none } ∧
        (join64 u.posHi u.posLo).toNat = ((join64 s.posHi s.posLo).toNat + 1) % 2 ^ 64 ∧
        u.ks = perm (initMatrix s.key (join64 u.posHi u.posLo) (join64 s.nonceHi s.nonceLo)) s.rounds.toInt.toNat) ∧
    (s.busy = false → s.locked = false → exec .geninc s = .next (setErr .notConfigured s)) ∧
    (s.busy = true → exec .geninc s = .next (setErr .busy s))

/-- R150: XOR with a valid keystream and LEN <= 32 waits; its completion makes byte j of DOUT din(j) ^ ks(j) for j < LEN
and 0 for the others, and changes nothing else. NO_KEYSTREAM is raised before BAD_LEN, and either leaves the rest. -/
def Obligations.XorIssuesAndCompletes : Prop :=
  ∀ s : State,
    (s.busy = false → s.ksv = true → s.len.toNat ≤ 32 →
      ∃ t u, exec .xor s = .next t ∧ t = { s with busy := true, pend := some .xor } ∧ engineStep t = u ∧
        u = { s with dout := u.dout, busy := false, pend := none } ∧
        ∀ (i : Fin 8) (k : Fin 4),
          (u.dout[i]).extractLsb' (8 * k) 8 =
            if 4 * i.val + k.val < s.len.toNat then
              (s.din[i]).extractLsb' (8 * k) 8 ^^^ (s.ks[i.val]).extractLsb' (8 * k) 8
            else 0) ∧
    (s.busy = false → s.ksv = false → exec .xor s = .next (setErr .noKeystream s)) ∧
    (s.busy = false → s.ksv = true → 32 < s.len.toNat → exec .xor s = .next (setErr .badLen s)) ∧
    (s.busy = true → exec .xor s = .next (setErr .busy s))

/-! ### The quarter round and the block function -/

/-- R110: rotl32(x, n) is the 32-bit circular left shift, for every amount in 1..31: bit j comes from bit j - n, the
index taken modulo 32. -/
def Obligations.RotationIsCircular : Prop :=
  ∀ (x : Word) (n j : Nat), 1 ≤ n → n ≤ 31 → j < 32 → (rotl32 x n).getLsbD j = x.getLsbD ((j + 32 - n) % 32)

/-- R111: QRf is its twelve statements in order, each reading what the ones before it wrote, with sums modulo 2^32. -/
def Obligations.QuarterRoundStatements : Prop :=
  ∀ a0 b0 c0 d0 a1 b1 c1 d1 a2 b2 c2 d2 : Word,
    a1.toNat = (a0.toNat + b0.toNat) % 2 ^ 32 → d1 = (d0 ^^^ a1).rotateLeft 16 →
    c1.toNat = (c0.toNat + d1.toNat) % 2 ^ 32 → b1 = (b0 ^^^ c1).rotateLeft 12 →
    a2.toNat = (a1.toNat + b1.toNat) % 2 ^ 32 → d2 = (d1 ^^^ a2).rotateLeft 8 →
    c2.toNat = (c1.toNat + d2.toNat) % 2 ^ 32 → b2 = (b1 ^^^ c2).rotateLeft 7 →
    qrf a0 b0 c0 d0 = (a2, b2, c2, d2)

/-- R113: QRf is a bijection on four words, and the all-zero input is a fixed point of it. -/
def Obligations.QuarterRoundIsBijective : Prop :=
  Function.Bijective (fun x : Word × Word × Word × Word => qrf x.1 x.2.1 x.2.2.1 x.2.2.2) ∧
  qrf 0 0 0 0 = (0, 0, 0, 0)

/-- R120: the bytes of SIGMA[0..3], little-endian, are the 16 ASCII characters of "expand 32-byte k" in string order, and
the words are those of the table. -/
def Obligations.SigmaSpellsTheConstant : Prop :=
  sigma = #v[0x61707865, 0x3320646e, 0x79622d32, 0x6b206574] ∧
  ∀ j : Fin 16, ((sigma[j.val / 4]).extractLsb' (8 * (j.val % 4)) 8).toNat =
    ("expand 32-byte k".toList.getD j.val ' ').toNat

/-- R121: the initial matrix, row by row, and its last row in the engine's registers. -/
def Obligations.InitialMatrixRows : Prop :=
  (∀ s : State,
    (initMatrix s.key s.pos s.nonce)[12] = s.posLo ∧ (initMatrix s.key s.pos s.nonce)[13] = s.posHi ∧
    (initMatrix s.key s.pos s.nonce)[14] = s.nonceLo ∧ (initMatrix s.key s.pos s.nonce)[15] = s.nonceHi) ∧
  ∀ (k : Vector Word 8) (pos nonce : DWord) (c : Fin 4),
    (initMatrix k pos nonce)[c.val] = sigma[c.val] ∧
    (initMatrix k pos nonce)[4 + c.val] = k[c.val] ∧
    (initMatrix k pos nonce)[8 + c.val] = k[4 + c.val] ∧
    (initMatrix k pos nonce)[12] = pos.extractLsb' 0 32 ∧ (initMatrix k pos nonce)[13] = pos.extractLsb' 32 32 ∧
    (initMatrix k pos nonce)[14] = nonce.extractLsb' 0 32 ∧ (initMatrix k pos nonce)[15] = nonce.extractLsb' 32 32

/-- R122: the column pass replaces each column by its quarter round, a to d being rows 0 to 3. -/
def Obligations.ColumnPassRoundsEachColumn : Prop :=
  ∀ (m : Matrix) (c : Fin 4),
    ((colPass m)[c.val], (colPass m)[4 + c.val], (colPass m)[8 + c.val], (colPass m)[12 + c.val]) =
      qrf m[c.val] m[4 + c.val] m[8 + c.val] m[12 + c.val]

/-- R123: the diagonal pass replaces each of the diagonals (0,5,10,15), (1,6,11,12), (2,7,8,13), (3,4,9,14) by its
quarter round. -/
def Obligations.DiagonalPassRoundsEachDiagonal : Prop :=
  ∀ m : Matrix,
    ((diagPass m)[0], (diagPass m)[5], (diagPass m)[10], (diagPass m)[15]) = qrf m[0] m[5] m[10] m[15] ∧
    ((diagPass m)[1], (diagPass m)[6], (diagPass m)[11], (diagPass m)[12]) = qrf m[1] m[6] m[11] m[12] ∧
    ((diagPass m)[2], (diagPass m)[7], (diagPass m)[8], (diagPass m)[13]) = qrf m[2] m[7] m[8] m[13] ∧
    ((diagPass m)[3], (diagPass m)[4], (diagPass m)[9], (diagPass m)[14]) = qrf m[3] m[4] m[9] m[14]

/-- R124: the order in which a pass applies its four quarter rounds cannot change its result. -/
def Obligations.OrderWithinAPassIsIrrelevant : Prop :=
  ∀ (m : Matrix) (order : List (Fin 4)), order.Perm [0, 1, 2, 3] →
    order.foldl colQr m = colPass m ∧ order.foldl diagQr m = diagPass m

/-- R125, R127, R128: one unit of the round count is one column pass and then one diagonal pass, counts add up, and no
step adds the initial matrix. -/
def Obligations.RoundCountsAddUp : Prop :=
  ∀ (m : Matrix) (a b : Nat),
    perm m 0 = m ∧ perm m 1 = diagPass (colPass m) ∧ perm m (a + b) = perm (perm m a) b

/-- R63: serializer byte 4*i + k is bits 8*k+7 : 8*k of final word i. -/
def Obligations.SerializerByteOrder : Prop :=
  ∀ (m : Matrix) (i : Fin 16) (k : Fin 4),
    (ser m)[4 * i.val + k.val]'(by omega) = (m[i]).extractLsb' (8 * k) 8

/-- R131, R132: the keystream block is bytes 0 to 31 of the serialization of the permuted initial matrix; after a GEN it
stands in KS[0..7], byte 4*i + k in bits 8*k+7 : 8*k of KS[i]. -/
def Obligations.KeystreamBlockStandsInKs : Prop :=
  ∀ s : State, s.pend = some .gen →
    ∀ (i : Fin 8) (k : Fin 4),
      (((engineStep s).ks[i.val]).extractLsb' (8 * k) 8) =
        (block s.key s.rounds.toInt.toNat (join64 s.posHi s.posLo) (join64 s.nonceHi s.nonceLo))[4 * i.val + k.val]'(by
          omega)

/-- R133: the block is a pure function of key, round count, position and nonce: two engines that agree on these, and on
nothing else, complete a GEN with the same KS. -/
def Obligations.GenerationReadsNothingElse : Prop :=
  ∀ s t : State, s.pend = some .gen → t.pend = some .gen →
    s.key = t.key → s.rounds = t.rounds → s.posLo = t.posLo → s.posHi = t.posHi → s.nonceLo = t.nonceLo →
    s.nonceHi = t.nonceHi → (engineStep s).ks = (engineStep t).ks

/-! ### The keystream XOR -/

/-- R151: XOR applied to its own output, with the same KS and LEN, gives back the first LEN bytes of DIN. -/
def Obligations.XorTwiceGivesBackTheData : Prop :=
  ∀ s : State, s.pend = some .xor →
    ∀ (i : Fin 8) (k : Fin 4), 4 * i.val + k.val < s.len.toNat →
      ((engineStep { engineStep s with din := (engineStep s).dout, pend := some .xor }).dout[i]).extractLsb' (8 * k) 8 =
        (s.din[i]).extractLsb' (8 * k) 8

/-- R152: byte j of the output depends only on byte j of DIN, byte j of KS and whether j < LEN. -/
def Obligations.XorLanesAreIndependent : Prop :=
  ∀ (s t : State) (i : Fin 8) (k : Fin 4), s.pend = some .xor → t.pend = some .xor →
    (s.din[i]).extractLsb' (8 * k) 8 = (t.din[i]).extractLsb' (8 * k) 8 →
    (s.ks[i.val]).extractLsb' (8 * k) 8 = (t.ks[i.val]).extractLsb' (8 * k) 8 →
    (4 * i.val + k.val < s.len.toNat ↔ 4 * i.val + k.val < t.len.toNat) →
    ((engineStep s).dout[i]).extractLsb' (8 * k) 8 = ((engineStep t).dout[i]).extractLsb' (8 * k) 8

/-! ### The register window -/

/-- R61: the register map, every offset written out: each register stands at its offset and no other register does; the
offsets 0x00C, 0x044 to 0x04C and 0x0A0 to 0x0BC are reserved. -/
def Obligations.RegisterMapOffsets : Prop :=
  (regAt 0x000 = .cmd ∧ regAt 0x004 = .status ∧ regAt 0x008 = .rounds ∧ (∀ i : Fin 8, regAt (0x010 + 4 * i) = .key i) ∧
    regAt 0x030 = .posLo ∧ regAt 0x034 = .posHi ∧ regAt 0x038 = .nonceLo ∧ regAt 0x03C = .nonceHi ∧ regAt 0x040 = .len ∧
    (∀ i : Fin 4, regAt (0x050 + 4 * i) = .q i) ∧ (∀ i : Fin 8, regAt (0x060 + 4 * i) = .din i) ∧
    (∀ i : Fin 8, regAt (0x080 + 4 * i) = .dout i) ∧ (∀ i : Fin 16, regAt (0x0C0 + 4 * i) = .ks i)) ∧
  (∀ r : Reg, regAt r.offset = r ∧ r.offset % 4 = 0 ∧ r.offset ≤ 0xFC) ∧
  (∀ off : Nat, off % 4 = 0 → off ≤ 0xFC →
    ((regAt off = .reserved ↔ off = 0x00C ∨ (0x044 ≤ off ∧ off ≤ 0x04C) ∨ (0x0A0 ≤ off ∧ off ≤ 0x0BC)) ∧
     (regAt off ≠ .reserved → (regAt off).offset = off)))

/-- R62: an access of another width, misaligned or beyond the window has no step, and every other access has one. The step
is then, in the model's words, the read or the write of the register at that offset, on the state past the input. -/
def Obligations.OnlyAlignedWordAccessesHaveAStep : Prop :=
  ∀ (s : State) (rest : List Input) (off : Int) (n : Nat) (v : Word),
    (∀ a : Access, (a = .read off n ∨ a = .write off n v) → s.inputs = .host a :: rest →
      step s = hostAccess a { s with inputs := rest } ∧
      ((n ≠ 4 ∨ off % 4 ≠ 0 ∨ off < 0 ∨ 0x0FC < off) → ∃ r, step s = .refused r) ∧
      ((n = 4 ∧ off % 4 = 0 ∧ 0 ≤ off ∧ off ≤ 0x0FC) → ∃ t, step s = .next t)) ∧
    (n = 4 → off % 4 = 0 → 0 ≤ off → off ≤ 0x0FC →
      step { s with inputs := .host (.read off n) :: rest } = .next (readReg (regAt off.toNat) { s with inputs := rest }) ∧
      step { s with inputs := .host (.write off n v) :: rest } = writeReg (regAt off.toNat) v { s with inputs := rest })

/-- R17, R60: an access at bus address BASE + off is the access at offset off of the window, BASE is aligned to 256 bytes,
and no address outside BASE + 0x000 to BASE + 0x0FF answers. -/
def Obligations.WindowLiesAtBase : Prop :=
  (∀ (off : Nat) (v : Word), memRead (Config.base + off) 4 = regRead off ∧
    memWrite (Config.base + off) 4 v = regWrite off v) ∧
  Config.base % 256 = 0 ∧
  (∀ (addr n : Nat) (v : Word) (s : State), addr < Config.base ∨ Config.base + 0x0FF < addr →
    (∃ r, hostAccess (memRead addr n) s = .refused r) ∧ (∃ r, hostAccess (memWrite addr n v) s = .refused r))

/-- R65: what a read of any offset of the window answers, and that it changes nothing else. The answers and the number of draws are the model's own
fields (log entries 3 and 4). -/
def Obligations.ReadAnswersValueOrDraw : Prop :=
  (∀ (s : State) (off : Nat) (r : Reg) (rest : List Input), off % 4 = 0 → off ≤ 0x0FC → regAt off = r →
    s.inputs = .host (regRead off) :: rest →
    (s.busy = false →
      step s = .next { s with inputs := rest, replies := regValue r s :: s.replies }) ∧
    (∀ op, s.busy = true → s.pend = some op →
      ((op = .gen ∧ ∃ i, r = .ks i) ∨ (op = .geninc ∧ ((∃ i, r = .ks i) ∨ r = .posLo ∨ r = .posHi)) ∨
        (op = .xor ∧ ∃ i, r = .dout i) ∨ (op = .qr ∧ ∃ i, r = .q i) →
        step s = .next { s with inputs := rest, replies := Config.draw s.draws :: s.replies, draws := s.draws + 1 }) ∧
      (¬((op = .gen ∧ ∃ i, r = .ks i) ∨ (op = .geninc ∧ ((∃ i, r = .ks i) ∨ r = .posLo ∨ r = .posHi)) ∨
        (op = .xor ∧ ∃ i, r = .dout i) ∨ (op = .qr ∧ ∃ i, r = .q i)) →
        step s = .next { s with inputs := rest, replies := regValue r s :: s.replies }))) ∧
  (∀ s : State, regValue .cmd s = 0 ∧ (∀ i, regValue (.key i) s = 0) ∧ regValue .reserved s = 0 ∧
    regValue .rounds s = s.rounds ∧ regValue .posLo s = s.posLo ∧ regValue .posHi s = s.posHi ∧
    regValue .nonceLo s = s.nonceLo ∧ regValue .nonceHi s = s.nonceHi ∧ regValue .len s = s.len ∧
    (∀ i, regValue (.q i) s = s.q[i]) ∧ (∀ i, regValue (.din i) s = s.din[i]) ∧
    (∀ i, regValue (.dout i) s = s.dout[i]) ∧ (∀ i, regValue (.ks i) s = s.ks[i]))

/-- R32, R200: the STATUS word a host reads, field by field. -/
def Obligations.StatusWordFields : Prop :=
  ∀ s : State,
    (regValue .status s).getLsbD 0 = s.busy ∧ (regValue .status s).getLsbD 1 = s.locked ∧
    (regValue .status s).getLsbD 2 = s.ksv ∧ (regValue .status s).extractLsb' 3 5 = 0 ∧
    ((regValue .status s).extractLsb' 8 4).toNat =
      (match s.err with
        | .none => 0 | .busy => 1 | .illegalCmd => 2 | .locked => 3 | .badRounds => 4 | .notConfigured => 5
        | .noKeystream => 6 | .badLen => 7) ∧
    (regValue .status s).extractLsb' 12 20 = 0

/-- R66: a write to ROUNDS or KEY[i]; the last three parts say so of the step, by the offsets of R61. -/
def Obligations.LockableRegisterWrites : Prop :=
  ∀ (s : State) (v : Word) (i : Fin 8) (rest : List Input),
    (s.busy = true → writeReg .rounds v s = .next (setErr .busy s) ∧ writeReg (.key i) v s = .next (setErr .busy s)) ∧
    (s.busy = false → s.locked = true →
      writeReg .rounds v s = .next (setErr .locked s) ∧ writeReg (.key i) v s = .next (setErr .locked s)) ∧
    (s.busy = false → s.locked = false →
      writeReg .rounds v s = .next { s with rounds := v } ∧
      writeReg (.key i) v s = .next { s with key := s.key.set i v }) ∧
    (∀ off : Nat, (off = 0x008 ∨ off = 0x010 + 4 * i.val) → s.busy = true →
      step { s with inputs := .host (regWrite off v) :: rest } = .next (setErr .busy { s with inputs := rest })) ∧
    (∀ off : Nat, (off = 0x008 ∨ off = 0x010 + 4 * i.val) → s.busy = false → s.locked = true →
      step { s with inputs := .host (regWrite off v) :: rest } = .next (setErr .locked { s with inputs := rest })) ∧
    (s.busy = false → s.locked = false →
      step { s with inputs := .host (regWrite 0x008 v) :: rest } = .next { s with inputs := rest, rounds := v } ∧
      step { s with inputs := .host (regWrite (0x010 + 4 * i) v) :: rest } =
        .next { s with inputs := rest, key := s.key.set i v })

/-- R68: a write to an operand register stores all 32 bits, whether or not LOCKED is set, and changes nothing else; the
last two parts say so of the step, by the offsets of R61. -/
def Obligations.OperandRegisterWrites : Prop :=
  ∀ (s : State) (v : Word) (rest : List Input),
    (s.busy = false →
      writeReg .posLo v s = .next { s with posLo := v } ∧ writeReg .posHi v s = .next { s with posHi := v } ∧
      writeReg .nonceLo v s = .next { s with nonceLo := v } ∧ writeReg .nonceHi v s = .next { s with nonceHi := v } ∧
      writeReg .len v s = .next { s with len := v } ∧
      (∀ i, writeReg (.q i) v s = .next { s with q := s.q.set i v }) ∧
      (∀ i, writeReg (.din i) v s = .next { s with din := s.din.set i v })) ∧
    (s.busy = true → ∀ r : Reg, (r = .posLo ∨ r = .posHi ∨ r = .nonceLo ∨ r = .nonceHi ∨ r = .len ∨ (∃ i, r = .q i) ∨
      (∃ i, r = .din i)) → writeReg r v s = .next (setErr .busy s)) ∧
    (s.busy = false →
      step { s with inputs := .host (regWrite 0x030 v) :: rest } = .next { s with inputs := rest, posLo := v } ∧
      step { s with inputs := .host (regWrite 0x034 v) :: rest } = .next { s with inputs := rest, posHi := v } ∧
      step { s with inputs := .host (regWrite 0x038 v) :: rest } = .next { s with inputs := rest, nonceLo := v } ∧
      step { s with inputs := .host (regWrite 0x03C v) :: rest } = .next { s with inputs := rest, nonceHi := v } ∧
      step { s with inputs := .host (regWrite 0x040 v) :: rest } = .next { s with inputs := rest, len := v } ∧
      (∀ i : Fin 4, step { s with inputs := .host (regWrite (0x050 + 4 * i) v) :: rest } =
        .next { s with inputs := rest, q := s.q.set i v }) ∧
      (∀ i : Fin 8, step { s with inputs := .host (regWrite (0x060 + 4 * i) v) :: rest } =
        .next { s with inputs := rest, din := s.din.set i v })) ∧
    (s.busy = true → ∀ off : Nat, off % 4 = 0 →
      ((0x030 ≤ off ∧ off ≤ 0x040) ∨ (0x050 ≤ off ∧ off ≤ 0x07C)) →
      step { s with inputs := .host (regWrite off v) :: rest } = .next (setErr .busy { s with inputs := rest }))

/-- R69: a write to STATUS, DOUT[i], KS[i] or a reserved offset is ignored and raises no error, busy or not; the second
part says so of the step, by the offsets of R61: STATUS, the reserved ones, DOUT and KS. -/
def Obligations.ReadOnlyWritesAreIgnored : Prop :=
  ∀ (s : State) (v : Word),
    (∀ r : Reg, (r = .status ∨ (∃ i, r = .dout i) ∨ (∃ i, r = .ks i) ∨ r = .reserved) → writeReg r v s = .next s) ∧
    (∀ (off : Nat) (rest : List Input), off % 4 = 0 →
      (off = 0x004 ∨ off = 0x00C ∨ (0x044 ≤ off ∧ off ≤ 0x04C) ∨ (0x080 ≤ off ∧ off ≤ 0x0FC)) →
      step { s with inputs := .host (regWrite off v) :: rest } = .next { s with inputs := rest })

/-- R70: repeating a write other than one to CMD leaves the same state; so does the step, at every other offset. -/
def Obligations.RegisterWritesAreIdempotent : Prop :=
  (∀ (s t : State) (r : Reg) (v : Word), r ≠ .cmd → writeReg r v s = .next t → writeReg r v t = .next t) ∧
  (∀ (s t : State) (off : Nat) (v : Word) (rest : List Input), off % 4 = 0 → 0x004 ≤ off → off ≤ 0x0FC →
    step { s with inputs := .host (regWrite off v) :: rest } = .next t →
    step { t with inputs := .host (regWrite off v) :: rest } = .next t)

/-- R23, R165: no host read tells two keys apart: two engines that differ only in KEY answer every access alike. -/
def Obligations.NoReadRevealsTheKey : Prop :=
  ∀ (s : State) (k : Vector Word 8) (off : Int) (n : Nat),
    (∀ t, hostAccess (.read off n) s = .next t → hostAccess (.read off n) { s with key := k } = .next { t with key := k }) ∧
    (∀ r, hostAccess (.read off n) s = .refused r → hostAccess (.read off n) { s with key := k } = .refused r)

/-! ### Completion and the order of steps -/

/-- R240, R205: the engine's turn is the completion part of the pending command (engineStep, whose effect by command the
statements of GEN, GENINC, XOR and QR give); the engine has a step exactly when PEND is not NONE; it ends with BUSY = 0
and PEND = NONE and raises no error. That without a pending command the turn changes nothing, and that a step with no
input is the engine's, is the model's choice (log entry 2). -/
def Obligations.CompletionStep : Prop :=
  (∀ (s : State) (rest : List Input), s.inputs = .engine :: rest →
    step s = .next (engineStep { s with inputs := rest }) ∧
    (s.pend ≠ none → ∃ t, step s = .next t ∧ t.busy = false ∧ t.pend = none ∧ t.err = s.err ∧ t.locked = s.locked ∧
      t.key = s.key ∧ t.rounds = s.rounds ∧ t.nonceLo = s.nonceLo ∧ t.nonceHi = s.nonceHi ∧ t.len = s.len ∧
      t.din = s.din ∧ t.inputs = rest) ∧
    (s.pend = none → step s = .next { s with inputs := rest })) ∧
  (∀ s : State, s.inputs = [] → step s = .next (engineStep s))

/-- R241: a pending command completes, unless a reset abandons it first. Whatever accesses within the interface, turns and
resets still stand, once they and one more step have been taken nothing is pending and BUSY = 0, so a host's WAIT ends. That a step with no input is
the engine's is the model's choice (log entry 2). -/
def Obligations.EveryPendingCommandCompletes : Prop :=
  ∀ s : State, Inv s → (∀ i ∈ s.inputs, i.ok = true) →
    ∃ t : State, Sys2Proof.core.run (s.inputs.length + 1) s = .next t ∧ t.inputs = [] ∧ t.pend = none ∧ t.busy = false

/-- R225: with no input and no command pending the engine is idle and all state persists. That the model has a step then,
and that it answers the same state, is its choice (log entry 2). -/
def Obligations.IdleEngineKeepsItsState : Prop :=
  ∀ s : State, s.inputs = [] → s.pend = none → step s = .next s

/-- R243, R205: while a command is pending, a host access changes no register but ERR, so the command's operands are
frozen until its completion. -/
def Obligations.OperandsAreFrozenWhileBusy : Prop :=
  ∀ (s t : State) (a : Access) (rest : List Input), s.busy = true → s.inputs = .host a :: rest → step s = .next t →
    t = { s with err := t.err, inputs := rest, draws := t.draws, replies := t.replies }

/-! ### The whole machine -/

/-- The invariant holds right after reset. -/
def Obligations.InvariantAfterReset : Prop := Inv State.reset

/-- Every step keeps the invariant: BUSY says whether a command is pending (R40), a constructed engine holds a legal
round count (R127), a pending command's issue checks still hold (R140, R141, R150, R205), and while KSV = 1 KS is the
result of a generation with the engine's key and round count (R32, R35). -/
def Obligations.EveryStepKeepsTheInvariant : Prop := ∀ s t : State, Inv s → step s = .next t → Inv t

/-- R34, R161, R165: over one whole step, LOCKED is set only by the word of CFG written to CMD of an engine that is not
busy and holds a legal round count, is cleared only by reset, and while it stays set KEY and ROUNDS do not change. -/
def Obligations.ConstructionIsFixedUntilReset : Prop :=
  ∀ s t : State, step s = .next t →
    (s.locked = false → t.locked = true →
      s.busy = false ∧ 0 < s.rounds.toInt ∧
        ∃ i rest, s.inputs = i :: rest ∧ i.isCommandWord (encode .cfg) = true) ∧
    (s.locked = true →
      (t.locked = true ∧ t.key = s.key ∧ t.rounds = s.rounds) ∨
      ∃ i rest, s.inputs = i :: rest ∧ i.isReset = true)

/-- R33: over one whole step, BUSY goes from 0 to 1 only by the word of GEN, GENINC, XOR or QR written to CMD, and PEND
then holds that command; it goes from 1 to 0 only by the completion step of the pending command or by reset. -/
def Obligations.BusySpansALongCommand : Prop :=
  ∀ s t : State, step s = .next t →
    (s.busy = false → t.busy = true →
      ∃ i rest, s.inputs = i :: rest ∧
        ((i.isCommandWord (encode .gen) = true ∧ t.pend = some .gen) ∨
         (i.isCommandWord (encode .geninc) = true ∧ t.pend = some .geninc) ∨
         (i.isCommandWord (encode .xor) = true ∧ t.pend = some .xor) ∨
         (i.isCommandWord (encode .qr) = true ∧ t.pend = some .qr))) ∧
    (s.busy = true → t.busy = false →
      (s.pend ≠ none ∧ (s.inputs = [] ∨ ∃ rest, s.inputs = .engine :: rest)) ∨
      ∃ i rest, s.inputs = i :: rest ∧ i.isReset = true)

/-- R35: over one whole step, KSV goes from 0 to 1 only by the completion of GEN or GENINC, and from 1 to 0 only by an
accepted GEN or GENINC, by CLR or by reset. -/
def Obligations.KeystreamValidChanges : Prop :=
  ∀ s t : State, step s = .next t →
    (s.ksv = false → t.ksv = true →
      (s.pend = some .gen ∨ s.pend = some .geninc) ∧ (s.inputs = [] ∨ ∃ rest, s.inputs = .engine :: rest)) ∧
    (s.ksv = true → t.ksv = false →
      ∃ i rest, s.inputs = i :: rest ∧
        (i.isReset = true ∨ (s.busy = false ∧ (i.isCommandWord (encode .clr) = true ∨
          (s.locked = true ∧ (i.isCommandWord (encode .gen) = true ∨ i.isCommandWord (encode .geninc) = true))))))

/-- R29, R30: over one whole step, KS changes only by the completion of GEN or GENINC, by CLR or by reset, and DOUT only
by the completion of XOR, by CLR or by reset. -/
def Obligations.ResultsChangeOnlyByTheirCommands : Prop :=
  ∀ s t : State, step s = .next t → (t.ks ≠ s.ks ∨ t.dout ≠ s.dout) →
    (∃ i rest, s.inputs = i :: rest ∧
      (i.isReset = true ∨ (s.busy = false ∧ i.isCommandWord (encode .clr) = true))) ∨
    ((s.inputs = [] ∨ ∃ rest, s.inputs = .engine :: rest) ∧
      (t.ks ≠ s.ks → s.pend = some .gen ∨ s.pend = some .geninc) ∧ (t.dout ≠ s.dout → s.pend = some .xor))

/-- R41: the hidden matrix S is never read: over any number of steps, two machines that differ only in S go on to differ
in nothing but S, and stop alike. So what S holds at reset (the model's choice, log entry 8) is seen by no host. -/
def Obligations.HiddenMatrixIsUnobservable : Prop :=
  ∀ (k : Nat) (s : State) (m : Matrix),
    (∀ t : State, Sys2Proof.core.run k s = .next t → ∃ m' : Matrix, Sys2Proof.core.run k { s with mat := m } = .next { t with mat := m' }) ∧
    (∀ r : Refusal, Sys2Proof.core.run k s = .refused r → Sys2Proof.core.run k { s with mat := m } = .refused r)

/-! ### The stream driver -/

/-- R188: for every key, round count, buffer and start position, decrypting with the nonces the sink recorded gives back
the buffer, and so it does with no sink and no nonces; the length is kept. -/
def Obligations.DecryptUndoesEncrypt : Prop :=
  ∀ (k : Vector Word 8) (n : Nat) (data : List Byte) (start : DWord) (calls : Nat),
    (∃ seq, (encrypt k n data start (some []) calls).2 = some seq ∧
      decrypt k n (encrypt k n data start (some []) calls).1 start (some seq) = .ok data) ∧
    decrypt k n (encrypt k n data start none calls).1 start none = .ok data ∧
    (∀ sink, (encrypt k n data start sink calls).1.length = data.length)

/-- R182, R185, R189: encryption block by block. Byte j of block i is byte 32*i + j of the data XORed with byte j of the
keystream block for position start + i + 1, modulo 2^64, and for the nonce of block i: with a sink entry i of what the sink
gains, one entry a block and none for an empty buffer; without one 0. With generators block i takes position and nonce as
posGen and nonceGen return them, each called once a block, posGen first, in increasing i. That draw i of nonceSource is its
call number calls + i is the model's choice (log entry 13). -/
def Obligations.SinkRecordsEachNonce : Prop :=
  ∀ (k : Vector Word 8) (n : Nat) (data : List Byte),
    (∀ (start : DWord) (calls : Nat) (old : List DWord),
      ∃ new, (encrypt k n data start (some old) calls).2 = some (old ++ new) ∧
        new.length = (data.length + 31) / 32 ∧
        (∀ i, i < new.length → new[i]? = some (Config.nonceSource (calls + i))) ∧
        (data = [] → new = []) ∧
        (∀ (i : Nat) (j : Fin 32) (h : 32 * i + j.val < data.length),
          (encrypt k n data start (some old) calls).1[32 * i + j.val]? =
            some (data[32 * i + j.val] ^^^ (block k n (start + BitVec.ofNat 64 (i + 1)) (new.getD i 0))[j]))) ∧
    (∀ (start : DWord) (calls : Nat),
      (encrypt k n data start none calls).2 = none ∧
        (∀ (i : Nat) (j : Fin 32) (h : 32 * i + j.val < data.length),
          (encrypt k n data start none calls).1[32 * i + j.val]? =
            some (data[32 * i + j.val] ^^^ (block k n (start + BitVec.ofNat 64 (i + 1)) 0)[j]))) ∧
    (∀ (σ : Type) (posGen nonceGen : Generator σ) (pos nonce : Nat → DWord) (before between : Nat → σ),
      (∀ i, i < (data.length + 31) / 32 →
        posGen i (before i) = (pos i, between i) ∧ nonceGen i (between i) = (nonce i, before (i + 1))) →
      (encryptGen k n data posGen nonceGen (before 0)).2 = before ((data.length + 31) / 32) ∧
        (encryptGen k n data posGen nonceGen (before 0)).1.length = data.length ∧
        (∀ (i : Nat) (j : Fin 32) (h : 32 * i + j.val < data.length),
          (encryptGen k n data posGen nonceGen (before 0)).1[32 * i + j.val]? =
            some (data[32 * i + j.val] ^^^ (block k n (pos i) (nonce i))[j])))

/-- R184: with fewer nonces than blocks decryption fails with NonceUnderrun and no output, and otherwise it never fails:
block i is XORed with the keystream block for position start + i + 1, modulo 2^64, and for nonce i of the sequence, or 0
without one; entries past the last block are ignored. -/
def Obligations.NonceUnderrunFails : Prop :=
  ∀ (k : Vector Word 8) (n : Nat) (data : List Byte) (start : DWord),
    (∀ nonces : List DWord,
      (nonces.length < (data.length + 31) / 32 → decrypt k n data start (some nonces) = .error .nonceUnderrun) ∧
      ((data.length + 31) / 32 ≤ nonces.length →
        ∃ out, decrypt k n data start (some nonces) = .ok out ∧ out.length = data.length ∧
          (∀ (i : Nat) (j : Fin 32) (h : 32 * i + j.val < data.length),
            out[32 * i + j.val]? =
              some (data[32 * i + j.val] ^^^ (block k n (start + BitVec.ofNat 64 (i + 1)) (nonces.getD i 0))[j])))) ∧
    (∃ out, decrypt k n data start none = .ok out ∧ out.length = data.length ∧
      (∀ (i : Nat) (j : Fin 32) (h : 32 * i + j.val < data.length),
        out[32 * i + j.val]? = some (data[32 * i + j.val] ^^^ (block k n (start + BitVec.ofNat 64 (i + 1)) 0)[j])))

/-- R182, R183: one block of the driver on the engine. On a constructed engine that is not busy, GENINC with NONCE set,
and then XOR with the block's bytes in DIN and their number in LEN, leave in DOUT byte by byte what the driver computes
for the position after POS, and leave POS there. -/
def Obligations.EngineBlockIsTheDriversBlock : Prop :=
  ∀ (s : State) (nonce : DWord) (bytes : List Byte), s.busy = false → s.locked = true → bytes.length ≤ 32 →
    ∃ a b c, exec .geninc { s with nonceLo := lowWord nonce, nonceHi := highWord nonce } = .next a ∧
      engineStep a = b ∧
      exec .xor { b with din := dinWords bytes, len := BitVec.ofNat 32 bytes.length } = .next c ∧
      (engineStep c).pos = s.pos + 1 ∧ (engineStep c).err = s.err ∧
      ∀ (i : Fin 8) (k : Fin 4), 4 * i.val + k.val < bytes.length →
        some (((engineStep c).dout[i]).extractLsb' (8 * k) 8) =
          (cryptBuffer (fun _ => block s.key s.rounds.toInt.toNat (s.pos + 1) nonce) bytes)[4 * i.val + k.val]?

/-- R180: construction by the host. A key of another length than eight words fails on the host's side and writes nothing;
on an engine that is not busy, not constructed and without an error, a round count that is positive as s32 constructs it
with exactly that key and count, and any other fails with NonPositiveRounds and leaves it unconstructed. The answers of the
reads are the model's own field (log entry 3). -/
def Obligations.ConstructionOnTheEngine : Prop :=
  ∀ (s : State) (key : List Word) (rounds : Int),
    (key.length ≠ 8 → newOnEngine key s rounds = .next (.error .malformedKey, s)) ∧
    (key.length = 8 → s.busy = false → s.locked = false → s.err = .none →
      (0 < (BitVec.ofInt 32 rounds).toInt →
        ∃ t, newOnEngine key s rounds = .next (.ok (), t) ∧
          t = { s with key := t.key, rounds := BitVec.ofInt 32 rounds, locked := true, replies := t.replies } ∧
          ∀ i : Fin 8, key[i.val]? = some t.key[i]) ∧
      ((BitVec.ofInt 32 rounds).toInt ≤ 0 →
        ∃ t, newOnEngine key s rounds = .next (.error .nonPositiveRounds, t) ∧
          t = { s with key := t.key, rounds := BitVec.ofInt 32 rounds, err := .badRounds, replies := t.replies } ∧
          ∀ i : Fin 8, key[i.val]? = some t.key[i]))

/-- R183, R184, R185: the engine realisations. From a constructed engine that is not busy the host's lines, run one step at
a time, give what the procedures give: the output the host keeps of its reads of DOUT, the sink, and what the generators
remember, however many reads each WAIT makes before the engine's turn (log entry 15). After an encryption with the running
counter POS is start plus the number of blocks, modulo 2^64; no error is recorded. -/
def Obligations.EngineRealisesTheDriver : Prop :=
  ∀ (s : State) (data : List Byte) (start : DWord) (waits : Nat → Nat × Nat), s.busy = false → s.locked = true →
    (∀ (sink : Option (List DWord)) (calls : Nat),
      ∃ t, encryptOnEngine data start sink calls waits s =
          .next ((encrypt s.key s.rounds.toInt.toNat data start sink calls).1,
            (encrypt s.key s.rounds.toInt.toNat data start sink calls).2, t) ∧
        t.pos = start + BitVec.ofNat 64 ((data.length + 31) / 32) ∧ t.err = s.err ∧ t.busy = false ∧ t.locked = true ∧
        t.key = s.key ∧ t.rounds = s.rounds ∧ t.inputs = s.inputs) ∧
    (∀ nonces : Option (List DWord),
      ∃ t, decryptOnEngine data start nonces waits s =
          .next (decrypt s.key s.rounds.toInt.toNat data start nonces, t) ∧ t.err = s.err ∧
        (decrypt s.key s.rounds.toInt.toNat data start nonces = .error .nonceUnderrun → t = s)) ∧
    (∀ (σ : Type) (posGen nonceGen : Generator σ) (g : σ),
      ∃ t, encryptGenOnEngine data posGen nonceGen g waits s =
          .next ((encryptGen s.key s.rounds.toInt.toNat data posGen nonceGen g).1,
            (encryptGen s.key s.rounds.toInt.toNat data posGen nonceGen g).2, t) ∧ t.err = s.err)
end

