-- ==== Sys2Proof/Laws/State.lean ====
section
/-! SUPPORT. One lemma per field per update of State, each true by rfl. -/

namespace Sys2Proof.Machine

open Sys2Proof

@[simp] theorem beginLong_rounds (op : LongOp) (s : State) : (beginLong op s).rounds = s.rounds := rfl
@[simp] theorem beginLong_key (op : LongOp) (s : State) : (beginLong op s).key = s.key := rfl
@[simp] theorem beginLong_posLo (op : LongOp) (s : State) : (beginLong op s).posLo = s.posLo := rfl
@[simp] theorem beginLong_posHi (op : LongOp) (s : State) : (beginLong op s).posHi = s.posHi := rfl
@[simp] theorem beginLong_nonceLo (op : LongOp) (s : State) : (beginLong op s).nonceLo = s.nonceLo := rfl
@[simp] theorem beginLong_nonceHi (op : LongOp) (s : State) : (beginLong op s).nonceHi = s.nonceHi := rfl
@[simp] theorem beginLong_len (op : LongOp) (s : State) : (beginLong op s).len = s.len := rfl
@[simp] theorem beginLong_din (op : LongOp) (s : State) : (beginLong op s).din = s.din := rfl
@[simp] theorem beginLong_q (op : LongOp) (s : State) : (beginLong op s).q = s.q := rfl
@[simp] theorem beginLong_ks (op : LongOp) (s : State) : (beginLong op s).ks = s.ks := rfl
@[simp] theorem beginLong_dout (op : LongOp) (s : State) : (beginLong op s).dout = s.dout := rfl
@[simp] theorem beginLong_busy (op : LongOp) (s : State) : (beginLong op s).busy = true := rfl
@[simp] theorem beginLong_locked (op : LongOp) (s : State) : (beginLong op s).locked = s.locked := rfl
@[simp] theorem beginLong_ksv (op : LongOp) (s : State) : (beginLong op s).ksv = s.ksv := rfl
@[simp] theorem beginLong_err (op : LongOp) (s : State) : (beginLong op s).err = s.err := rfl
@[simp] theorem beginLong_pend (op : LongOp) (s : State) : (beginLong op s).pend = some op := rfl
@[simp] theorem beginLong_mat (op : LongOp) (s : State) : (beginLong op s).mat = s.mat := rfl
@[simp] theorem beginLong_inputs (op : LongOp) (s : State) : (beginLong op s).inputs = s.inputs := rfl
@[simp] theorem beginLong_draws (op : LongOp) (s : State) : (beginLong op s).draws = s.draws := rfl
@[simp] theorem beginLong_replies (op : LongOp) (s : State) : (beginLong op s).replies = s.replies := rfl

@[simp] theorem endLong_rounds (s : State) : (endLong s).rounds = s.rounds := rfl
@[simp] theorem endLong_key (s : State) : (endLong s).key = s.key := rfl
@[simp] theorem endLong_posLo (s : State) : (endLong s).posLo = s.posLo := rfl
@[simp] theorem endLong_posHi (s : State) : (endLong s).posHi = s.posHi := rfl
@[simp] theorem endLong_nonceLo (s : State) : (endLong s).nonceLo = s.nonceLo := rfl
@[simp] theorem endLong_nonceHi (s : State) : (endLong s).nonceHi = s.nonceHi := rfl
@[simp] theorem endLong_len (s : State) : (endLong s).len = s.len := rfl
@[simp] theorem endLong_din (s : State) : (endLong s).din = s.din := rfl
@[simp] theorem endLong_q (s : State) : (endLong s).q = s.q := rfl
@[simp] theorem endLong_ks (s : State) : (endLong s).ks = s.ks := rfl
@[simp] theorem endLong_dout (s : State) : (endLong s).dout = s.dout := rfl
@[simp] theorem endLong_busy (s : State) : (endLong s).busy = false := rfl
@[simp] theorem endLong_locked (s : State) : (endLong s).locked = s.locked := rfl
@[simp] theorem endLong_ksv (s : State) : (endLong s).ksv = s.ksv := rfl
@[simp] theorem endLong_err (s : State) : (endLong s).err = s.err := rfl
@[simp] theorem endLong_pend (s : State) : (endLong s).pend = none := rfl
@[simp] theorem endLong_mat (s : State) : (endLong s).mat = s.mat := rfl
@[simp] theorem endLong_inputs (s : State) : (endLong s).inputs = s.inputs := rfl
@[simp] theorem endLong_draws (s : State) : (endLong s).draws = s.draws := rfl
@[simp] theorem endLong_replies (s : State) : (endLong s).replies = s.replies := rfl

@[simp] theorem setErr_rounds (c : ErrCode) (s : State) : (setErr c s).rounds = s.rounds := rfl
@[simp] theorem setErr_key (c : ErrCode) (s : State) : (setErr c s).key = s.key := rfl
@[simp] theorem setErr_posLo (c : ErrCode) (s : State) : (setErr c s).posLo = s.posLo := rfl
@[simp] theorem setErr_posHi (c : ErrCode) (s : State) : (setErr c s).posHi = s.posHi := rfl
@[simp] theorem setErr_nonceLo (c : ErrCode) (s : State) : (setErr c s).nonceLo = s.nonceLo := rfl
@[simp] theorem setErr_nonceHi (c : ErrCode) (s : State) : (setErr c s).nonceHi = s.nonceHi := rfl
@[simp] theorem setErr_len (c : ErrCode) (s : State) : (setErr c s).len = s.len := rfl
@[simp] theorem setErr_din (c : ErrCode) (s : State) : (setErr c s).din = s.din := rfl
@[simp] theorem setErr_q (c : ErrCode) (s : State) : (setErr c s).q = s.q := rfl
@[simp] theorem setErr_ks (c : ErrCode) (s : State) : (setErr c s).ks = s.ks := rfl
@[simp] theorem setErr_dout (c : ErrCode) (s : State) : (setErr c s).dout = s.dout := rfl
@[simp] theorem setErr_busy (c : ErrCode) (s : State) : (setErr c s).busy = s.busy := rfl
@[simp] theorem setErr_locked (c : ErrCode) (s : State) : (setErr c s).locked = s.locked := rfl
@[simp] theorem setErr_ksv (c : ErrCode) (s : State) : (setErr c s).ksv = s.ksv := rfl
@[simp] theorem setErr_err (c : ErrCode) (s : State) : (setErr c s).err = if s.err = .none then c else s.err := rfl
@[simp] theorem setErr_pend (c : ErrCode) (s : State) : (setErr c s).pend = s.pend := rfl
@[simp] theorem setErr_mat (c : ErrCode) (s : State) : (setErr c s).mat = s.mat := rfl
@[simp] theorem setErr_inputs (c : ErrCode) (s : State) : (setErr c s).inputs = s.inputs := rfl
@[simp] theorem setErr_draws (c : ErrCode) (s : State) : (setErr c s).draws = s.draws := rfl
@[simp] theorem setErr_replies (c : ErrCode) (s : State) : (setErr c s).replies = s.replies := rfl

@[simp] theorem answer_rounds (v : Word) (s : State) : (answer v s).rounds = s.rounds := rfl
@[simp] theorem answer_key (v : Word) (s : State) : (answer v s).key = s.key := rfl
@[simp] theorem answer_posLo (v : Word) (s : State) : (answer v s).posLo = s.posLo := rfl
@[simp] theorem answer_posHi (v : Word) (s : State) : (answer v s).posHi = s.posHi := rfl
@[simp] theorem answer_nonceLo (v : Word) (s : State) : (answer v s).nonceLo = s.nonceLo := rfl
@[simp] theorem answer_nonceHi (v : Word) (s : State) : (answer v s).nonceHi = s.nonceHi := rfl
@[simp] theorem answer_len (v : Word) (s : State) : (answer v s).len = s.len := rfl
@[simp] theorem answer_din (v : Word) (s : State) : (answer v s).din = s.din := rfl
@[simp] theorem answer_q (v : Word) (s : State) : (answer v s).q = s.q := rfl
@[simp] theorem answer_ks (v : Word) (s : State) : (answer v s).ks = s.ks := rfl
@[simp] theorem answer_dout (v : Word) (s : State) : (answer v s).dout = s.dout := rfl
@[simp] theorem answer_busy (v : Word) (s : State) : (answer v s).busy = s.busy := rfl
@[simp] theorem answer_locked (v : Word) (s : State) : (answer v s).locked = s.locked := rfl
@[simp] theorem answer_ksv (v : Word) (s : State) : (answer v s).ksv = s.ksv := rfl
@[simp] theorem answer_err (v : Word) (s : State) : (answer v s).err = s.err := rfl
@[simp] theorem answer_pend (v : Word) (s : State) : (answer v s).pend = s.pend := rfl
@[simp] theorem answer_mat (v : Word) (s : State) : (answer v s).mat = s.mat := rfl
@[simp] theorem answer_inputs (v : Word) (s : State) : (answer v s).inputs = s.inputs := rfl
@[simp] theorem answer_draws (v : Word) (s : State) : (answer v s).draws = s.draws := rfl
@[simp] theorem answer_replies (v : Word) (s : State) : (answer v s).replies = v :: s.replies := rfl

@[simp] theorem answerDraw_rounds (s : State) : (answerDraw s).rounds = s.rounds := rfl
@[simp] theorem answerDraw_key (s : State) : (answerDraw s).key = s.key := rfl
@[simp] theorem answerDraw_posLo (s : State) : (answerDraw s).posLo = s.posLo := rfl
@[simp] theorem answerDraw_posHi (s : State) : (answerDraw s).posHi = s.posHi := rfl
@[simp] theorem answerDraw_nonceLo (s : State) : (answerDraw s).nonceLo = s.nonceLo := rfl
@[simp] theorem answerDraw_nonceHi (s : State) : (answerDraw s).nonceHi = s.nonceHi := rfl
@[simp] theorem answerDraw_len (s : State) : (answerDraw s).len = s.len := rfl
@[simp] theorem answerDraw_din (s : State) : (answerDraw s).din = s.din := rfl
@[simp] theorem answerDraw_q (s : State) : (answerDraw s).q = s.q := rfl
@[simp] theorem answerDraw_ks (s : State) : (answerDraw s).ks = s.ks := rfl
@[simp] theorem answerDraw_dout (s : State) : (answerDraw s).dout = s.dout := rfl
@[simp] theorem answerDraw_busy (s : State) : (answerDraw s).busy = s.busy := rfl
@[simp] theorem answerDraw_locked (s : State) : (answerDraw s).locked = s.locked := rfl
@[simp] theorem answerDraw_ksv (s : State) : (answerDraw s).ksv = s.ksv := rfl
@[simp] theorem answerDraw_err (s : State) : (answerDraw s).err = s.err := rfl
@[simp] theorem answerDraw_pend (s : State) : (answerDraw s).pend = s.pend := rfl
@[simp] theorem answerDraw_mat (s : State) : (answerDraw s).mat = s.mat := rfl
@[simp] theorem answerDraw_inputs (s : State) : (answerDraw s).inputs = s.inputs := rfl
@[simp] theorem answerDraw_draws (s : State) : (answerDraw s).draws = s.draws + 1 := rfl
@[simp] theorem answerDraw_replies (s : State) : (answerDraw s).replies = Config.draw s.draws :: s.replies := rfl

@[simp] theorem completeQr_rounds (s : State) : (completeQr s).rounds = s.rounds := rfl
@[simp] theorem completeQr_key (s : State) : (completeQr s).key = s.key := rfl
@[simp] theorem completeQr_posLo (s : State) : (completeQr s).posLo = s.posLo := rfl
@[simp] theorem completeQr_posHi (s : State) : (completeQr s).posHi = s.posHi := rfl
@[simp] theorem completeQr_nonceLo (s : State) : (completeQr s).nonceLo = s.nonceLo := rfl
@[simp] theorem completeQr_nonceHi (s : State) : (completeQr s).nonceHi = s.nonceHi := rfl
@[simp] theorem completeQr_len (s : State) : (completeQr s).len = s.len := rfl
@[simp] theorem completeQr_din (s : State) : (completeQr s).din = s.din := rfl
@[simp] theorem completeQr_q (s : State) : (completeQr s).q = qrRegs s.q := rfl
@[simp] theorem completeQr_ks (s : State) : (completeQr s).ks = s.ks := rfl
@[simp] theorem completeQr_dout (s : State) : (completeQr s).dout = s.dout := rfl
@[simp] theorem completeQr_busy (s : State) : (completeQr s).busy = false := rfl
@[simp] theorem completeQr_locked (s : State) : (completeQr s).locked = s.locked := rfl
@[simp] theorem completeQr_ksv (s : State) : (completeQr s).ksv = s.ksv := rfl
@[simp] theorem completeQr_err (s : State) : (completeQr s).err = s.err := rfl
@[simp] theorem completeQr_pend (s : State) : (completeQr s).pend = none := rfl
@[simp] theorem completeQr_mat (s : State) : (completeQr s).mat = s.mat := rfl
@[simp] theorem completeQr_inputs (s : State) : (completeQr s).inputs = s.inputs := rfl
@[simp] theorem completeQr_draws (s : State) : (completeQr s).draws = s.draws := rfl
@[simp] theorem completeQr_replies (s : State) : (completeQr s).replies = s.replies := rfl

@[simp] theorem completeXor_rounds (s : State) : (completeXor s).rounds = s.rounds := rfl
@[simp] theorem completeXor_key (s : State) : (completeXor s).key = s.key := rfl
@[simp] theorem completeXor_posLo (s : State) : (completeXor s).posLo = s.posLo := rfl
@[simp] theorem completeXor_posHi (s : State) : (completeXor s).posHi = s.posHi := rfl
@[simp] theorem completeXor_nonceLo (s : State) : (completeXor s).nonceLo = s.nonceLo := rfl
@[simp] theorem completeXor_nonceHi (s : State) : (completeXor s).nonceHi = s.nonceHi := rfl
@[simp] theorem completeXor_len (s : State) : (completeXor s).len = s.len := rfl
@[simp] theorem completeXor_din (s : State) : (completeXor s).din = s.din := rfl
@[simp] theorem completeXor_q (s : State) : (completeXor s).q = s.q := rfl
@[simp] theorem completeXor_ks (s : State) : (completeXor s).ks = s.ks := rfl
@[simp] theorem completeXor_dout (s : State) : (completeXor s).dout = xorBlock s.len s.din s.ks := rfl
@[simp] theorem completeXor_busy (s : State) : (completeXor s).busy = false := rfl
@[simp] theorem completeXor_locked (s : State) : (completeXor s).locked = s.locked := rfl
@[simp] theorem completeXor_ksv (s : State) : (completeXor s).ksv = s.ksv := rfl
@[simp] theorem completeXor_err (s : State) : (completeXor s).err = s.err := rfl
@[simp] theorem completeXor_pend (s : State) : (completeXor s).pend = none := rfl
@[simp] theorem completeXor_mat (s : State) : (completeXor s).mat = s.mat := rfl
@[simp] theorem completeXor_inputs (s : State) : (completeXor s).inputs = s.inputs := rfl
@[simp] theorem completeXor_draws (s : State) : (completeXor s).draws = s.draws := rfl
@[simp] theorem completeXor_replies (s : State) : (completeXor s).replies = s.replies := rfl

@[simp] theorem advancePos_rounds (s : State) : (advancePos s).rounds = s.rounds := rfl
@[simp] theorem advancePos_key (s : State) : (advancePos s).key = s.key := rfl
@[simp] theorem advancePos_posLo (s : State) : (advancePos s).posLo = lowWord (s.pos + 1) := rfl
@[simp] theorem advancePos_posHi (s : State) : (advancePos s).posHi = highWord (s.pos + 1) := rfl
@[simp] theorem advancePos_nonceLo (s : State) : (advancePos s).nonceLo = s.nonceLo := rfl
@[simp] theorem advancePos_nonceHi (s : State) : (advancePos s).nonceHi = s.nonceHi := rfl
@[simp] theorem advancePos_len (s : State) : (advancePos s).len = s.len := rfl
@[simp] theorem advancePos_din (s : State) : (advancePos s).din = s.din := rfl
@[simp] theorem advancePos_q (s : State) : (advancePos s).q = s.q := rfl
@[simp] theorem advancePos_ks (s : State) : (advancePos s).ks = s.ks := rfl
@[simp] theorem advancePos_dout (s : State) : (advancePos s).dout = s.dout := rfl
@[simp] theorem advancePos_busy (s : State) : (advancePos s).busy = s.busy := rfl
@[simp] theorem advancePos_locked (s : State) : (advancePos s).locked = s.locked := rfl
@[simp] theorem advancePos_ksv (s : State) : (advancePos s).ksv = s.ksv := rfl
@[simp] theorem advancePos_err (s : State) : (advancePos s).err = s.err := rfl
@[simp] theorem advancePos_pend (s : State) : (advancePos s).pend = s.pend := rfl
@[simp] theorem advancePos_mat (s : State) : (advancePos s).mat = s.mat := rfl
@[simp] theorem advancePos_inputs (s : State) : (advancePos s).inputs = s.inputs := rfl
@[simp] theorem advancePos_draws (s : State) : (advancePos s).draws = s.draws := rfl
@[simp] theorem advancePos_replies (s : State) : (advancePos s).replies = s.replies := rfl

@[simp] theorem generate_rounds (s : State) : (generate s).rounds = s.rounds := rfl
@[simp] theorem generate_key (s : State) : (generate s).key = s.key := rfl
@[simp] theorem generate_posLo (s : State) : (generate s).posLo = s.posLo := rfl
@[simp] theorem generate_posHi (s : State) : (generate s).posHi = s.posHi := rfl
@[simp] theorem generate_nonceLo (s : State) : (generate s).nonceLo = s.nonceLo := rfl
@[simp] theorem generate_nonceHi (s : State) : (generate s).nonceHi = s.nonceHi := rfl
@[simp] theorem generate_len (s : State) : (generate s).len = s.len := rfl
@[simp] theorem generate_din (s : State) : (generate s).din = s.din := rfl
@[simp] theorem generate_q (s : State) : (generate s).q = s.q := rfl
@[simp] theorem generate_ks (s : State) : (generate s).ks = perm (initMatrix s.key s.pos s.nonce) s.roundCount := rfl
@[simp] theorem generate_dout (s : State) : (generate s).dout = s.dout := rfl
@[simp] theorem generate_busy (s : State) : (generate s).busy = false := rfl
@[simp] theorem generate_locked (s : State) : (generate s).locked = s.locked := rfl
@[simp] theorem generate_ksv (s : State) : (generate s).ksv = true := rfl
@[simp] theorem generate_err (s : State) : (generate s).err = s.err := rfl
@[simp] theorem generate_pend (s : State) : (generate s).pend = none := rfl
@[simp] theorem generate_mat (s : State) : (generate s).mat = perm (initMatrix s.key s.pos s.nonce) s.roundCount := rfl
@[simp] theorem generate_inputs (s : State) : (generate s).inputs = s.inputs := rfl
@[simp] theorem generate_draws (s : State) : (generate s).draws = s.draws := rfl
@[simp] theorem generate_replies (s : State) : (generate s).replies = s.replies := rfl

@[simp] theorem resetRegisters_rounds (s : State) : (resetRegisters s).rounds = State.reset.rounds := rfl
@[simp] theorem resetRegisters_key (s : State) : (resetRegisters s).key = State.reset.key := rfl
@[simp] theorem resetRegisters_posLo (s : State) : (resetRegisters s).posLo = State.reset.posLo := rfl
@[simp] theorem resetRegisters_posHi (s : State) : (resetRegisters s).posHi = State.reset.posHi := rfl
@[simp] theorem resetRegisters_nonceLo (s : State) : (resetRegisters s).nonceLo = State.reset.nonceLo := rfl
@[simp] theorem resetRegisters_nonceHi (s : State) : (resetRegisters s).nonceHi = State.reset.nonceHi := rfl
@[simp] theorem resetRegisters_len (s : State) : (resetRegisters s).len = State.reset.len := rfl
@[simp] theorem resetRegisters_din (s : State) : (resetRegisters s).din = State.reset.din := rfl
@[simp] theorem resetRegisters_q (s : State) : (resetRegisters s).q = State.reset.q := rfl
@[simp] theorem resetRegisters_ks (s : State) : (resetRegisters s).ks = State.reset.ks := rfl
@[simp] theorem resetRegisters_dout (s : State) : (resetRegisters s).dout = State.reset.dout := rfl
@[simp] theorem resetRegisters_busy (s : State) : (resetRegisters s).busy = State.reset.busy := rfl
@[simp] theorem resetRegisters_locked (s : State) : (resetRegisters s).locked = State.reset.locked := rfl
@[simp] theorem resetRegisters_ksv (s : State) : (resetRegisters s).ksv = State.reset.ksv := rfl
@[simp] theorem resetRegisters_err (s : State) : (resetRegisters s).err = State.reset.err := rfl
@[simp] theorem resetRegisters_pend (s : State) : (resetRegisters s).pend = State.reset.pend := rfl
@[simp] theorem resetRegisters_mat (s : State) : (resetRegisters s).mat = State.reset.mat := rfl
@[simp] theorem resetRegisters_inputs (s : State) : (resetRegisters s).inputs = s.inputs := rfl
@[simp] theorem resetRegisters_draws (s : State) : (resetRegisters s).draws = s.draws := rfl
@[simp] theorem resetRegisters_replies (s : State) : (resetRegisters s).replies = s.replies := rfl

@[simp] theorem setReg_busy (r : Reg) (v : Word) (s : State) : (setReg r v s).busy = s.busy := by cases r <;> rfl
@[simp] theorem setReg_locked (r : Reg) (v : Word) (s : State) : (setReg r v s).locked = s.locked := by cases r <;> rfl
@[simp] theorem setReg_ksv (r : Reg) (v : Word) (s : State) : (setReg r v s).ksv = s.ksv := by cases r <;> rfl
@[simp] theorem setReg_err (r : Reg) (v : Word) (s : State) : (setReg r v s).err = s.err := by cases r <;> rfl
@[simp] theorem setReg_pend (r : Reg) (v : Word) (s : State) : (setReg r v s).pend = s.pend := by cases r <;> rfl
@[simp] theorem setReg_ks (r : Reg) (v : Word) (s : State) : (setReg r v s).ks = s.ks := by cases r <;> rfl
@[simp] theorem setReg_dout (r : Reg) (v : Word) (s : State) : (setReg r v s).dout = s.dout := by cases r <;> rfl
@[simp] theorem setReg_mat (r : Reg) (v : Word) (s : State) : (setReg r v s).mat = s.mat := by cases r <;> rfl
@[simp] theorem setReg_inputs (r : Reg) (v : Word) (s : State) : (setReg r v s).inputs = s.inputs := by cases r <;> rfl
@[simp] theorem setReg_draws (r : Reg) (v : Word) (s : State) : (setReg r v s).draws = s.draws := by cases r <;> rfl
@[simp] theorem setReg_replies (r : Reg) (v : Word) (s : State) : (setReg r v s).replies = s.replies := by cases r <;> rfl

end Sys2Proof.Machine
end

