-- ==== Sys2Proof/Laws/Ops.lean ====
section
/-! SUPPORT. One lemma per shared operation that says everything it can answer, the inversion of exec, of a host access
and of a step. -/

namespace Sys2Proof.Machine

open Sys2Proof

/-! ### Bytes, words and pairs -/

theorem byteOf_packWord_0 (b0 b1 b2 b3 : Byte) : byteOf (packWord b0 b1 b2 b3) 0 = b0 := by
  ext i hi
  simp [byteOf, packWord, show i < 16 by omega, show i < 24 by omega, show i < 32 by omega, hi]

theorem byteOf_packWord_1 (b0 b1 b2 b3 : Byte) : byteOf (packWord b0 b1 b2 b3) 1 = b1 := by
  ext i hi
  simp [byteOf, packWord, show 8 + i < 16 by omega, show 8 + i < 24 by omega, show 8 + i < 32 by omega, hi]

theorem byteOf_packWord_2 (b0 b1 b2 b3 : Byte) : byteOf (packWord b0 b1 b2 b3) 2 = b2 := by
  ext i hi
  simp [byteOf, packWord, show 16 + i < 24 by omega, show 16 + i < 32 by omega, hi,
    BitVec.getLsbD_of_ge b1 (16 + i - 8) (by omega), BitVec.getLsbD_of_ge b0 (16 + i) (by omega)]

theorem byteOf_packWord_3 (b0 b1 b2 b3 : Byte) : byteOf (packWord b0 b1 b2 b3) 3 = b3 := by
  ext i hi
  simp [byteOf, packWord, show 24 + i < 32 by omega, hi, BitVec.getLsbD_of_ge b2 (24 + i - 16) (by omega),
    BitVec.getLsbD_of_ge b1 (24 + i - 8) (by omega), BitVec.getLsbD_of_ge b0 (24 + i) (by omega)]

/-- Byte j of the words that pack a byte function is the function's byte j. -/
theorem bufByte_packWords (n : Nat) (f : Nat → Byte) (j : Fin (4 * n)) : bufByte (packWords n f) j = f j := by
  obtain ⟨j, hj⟩ := j
  have hq : 4 * (j / 4) + j % 4 = j := by omega
  simp only [bufByte, packWords, Vector.getElem_ofFn]
  rcases (by omega : j % 4 = 0 ∨ j % 4 = 1 ∨ j % 4 = 2 ∨ j % 4 = 3) with h | h | h | h <;> rw [h] at hq ⊢
  · rw [byteOf_packWord_0]; congr 1
  · rw [byteOf_packWord_1, hq]
  · rw [byteOf_packWord_2, hq]
  · rw [byteOf_packWord_3, hq]

@[simp] theorem lowWord_join64 (hi lo : Word) : lowWord (join64 hi lo) = lo := by
  ext i h; simp [lowWord, join64, show i < 64 by omega, h]

@[simp] theorem highWord_join64 (hi lo : Word) : highWord (join64 hi lo) = hi := by
  ext i h; simp [highWord, join64, show 32 + i < 64 by omega, h]

@[simp] theorem join64_high_low (v : DWord) : join64 (highWord v) (lowWord v) = v := by
  ext i h
  by_cases hi : i < 32
  · simp [join64, highWord, lowWord, hi, h]
  · simp [join64, highWord, lowWord, hi, show i - 32 < 32 by omega, show 32 + (i - 32) = i by omega, h]

@[simp] theorem advancePos_pos (s : State) : (advancePos s).pos = s.pos + 1 := join64_high_low _

@[simp] theorem generate_pos (s : State) : (generate s).pos = s.pos := rfl

@[simp] theorem advancePos_nonce (s : State) : (advancePos s).nonce = s.nonce := rfl

@[simp] theorem advancePos_roundCount (s : State) : (advancePos s).roundCount = s.roundCount := rfl

/-! ### The block generator and the XOR datapath -/

theorem perm_zero (m : Matrix) : perm m 0 = m := rfl

theorem perm_succ (m : Matrix) (n : Nat) : perm m (n + 1) = perm (doubleRound m) n := by
  rw [perm]

theorem Matrix.getElem_set_of_ne (m : Matrix) {i j : Fin 16} (h : i ≠ j) (v : Word) : (m.set i v)[j] = m[j] := by
  simp only [Fin.getElem_fin]
  exact Vector.getElem_set_ne _ _ (by simpa [Fin.ext_iff] using h)

/-- Four writes of a matrix. -/
theorem set4_set (m : Matrix) (i0 i1 i2 i3 j : Fin 16) (v0 v1 v2 v3 w : Word) (h0 : i0 ≠ j) (h1 : i1 ≠ j)
    (h2 : i2 ≠ j) (h3 : i3 ≠ j) :
    ((((m.set j w).set i0 v0).set i1 v1).set i2 v2).set i3 v3 =
      ((((m.set i0 v0).set i1 v1).set i2 v2).set i3 v3).set j w := by
  have c : ∀ (m : Matrix) (i : Fin 16) (v : Word), i ≠ j → (m.set j w).set i v = (m.set i v).set j w :=
    fun m i v h => Vector.set_comm _ _ (by simpa [Fin.ext_iff] using h.symm)
  rw [c _ _ _ h0, c _ _ _ h1, c _ _ _ h2, c _ _ _ h3]

/-- Quarter rounds of disjoint positions commute. -/
theorem qrAt_comm (m : Matrix) (i0 i1 i2 i3 j0 j1 j2 j3 : Fin 16)
    (h : ∀ i ∈ [i0, i1, i2, i3], ∀ j ∈ [j0, j1, j2, j3], i ≠ j) :
    qrAt i0 i1 i2 i3 (qrAt j0 j1 j2 j3 m) = qrAt j0 j1 j2 j3 (qrAt i0 i1 i2 i3 m) := by
  have g : ∀ (m : Matrix) (a0 a1 a2 a3 x : Fin 16) (v0 v1 v2 v3 : Word), a0 ≠ x → a1 ≠ x → a2 ≠ x → a3 ≠ x →
      ((((m.set a0 v0).set a1 v1).set a2 v2).set a3 v3)[x] = m[x] := by
    intro m a0 a1 a2 a3 x v0 v1 v2 v3 h0 h1 h2 h3
    rw [Matrix.getElem_set_of_ne _ h3, Matrix.getElem_set_of_ne _ h2, Matrix.getElem_set_of_ne _ h1,
      Matrix.getElem_set_of_ne _ h0]
  simp only [List.mem_cons, List.not_mem_nil, or_false, forall_eq_or_imp, forall_eq] at h
  obtain ⟨⟨a0, a1, a2, a3⟩, ⟨b0, b1, b2, b3⟩, ⟨c0, c1, c2, c3⟩, ⟨d0, d1, d2, d3⟩⟩ := h
  simp only [qrAt]
  rw [g _ _ _ _ _ i0 _ _ _ _ a0.symm a1.symm a2.symm a3.symm,
    g _ _ _ _ _ i1 _ _ _ _ b0.symm b1.symm b2.symm b3.symm,
    g _ _ _ _ _ i2 _ _ _ _ c0.symm c1.symm c2.symm c3.symm,
    g _ _ _ _ _ i3 _ _ _ _ d0.symm d1.symm d2.symm d3.symm,
    g _ _ _ _ _ j0 _ _ _ _ a0 b0 c0 d0, g _ _ _ _ _ j1 _ _ _ _ a1 b1 c1 d1,
    g _ _ _ _ _ j2 _ _ _ _ a2 b2 c2 d2, g _ _ _ _ _ j3 _ _ _ _ a3 b3 c3 d3]
  rw [set4_set _ _ _ _ _ j3 _ _ _ _ _ a3 b3 c3 d3, set4_set _ _ _ _ _ j2 _ _ _ _ _ a2 b2 c2 d2,
    set4_set _ _ _ _ _ j1 _ _ _ _ _ a1 b1 c1 d1, set4_set _ _ _ _ _ j0 _ _ _ _ _ a0 b0 c0 d0]

/-- Byte k of word i is byte 4*i + k of the buffer. -/
theorem extract_eq_bufByte {n : Nat} (buf : Vector Word n) (i : Fin n) (k : Fin 4) :
    (buf[i]).extractLsb' (8 * k) 8 = bufByte buf ⟨4 * i.val + k.val, by omega⟩ := by
  simp only [bufByte, byteOf, show (4 * i.val + k.val) / 4 = i.val by omega,
    show (4 * i.val + k.val) % 4 = k.val by omega]
  rfl

/-- Every byte of the XOR datapath's output (R150). -/
theorem xorBlock_byte (len : Word) (din : Vector Word 8) (ks : Vector Word 16) (i : Fin 8) (k : Fin 4) :
    ((xorBlock len din ks)[i]).extractLsb' (8 * k) 8 =
      if 4 * i.val + k.val < len.toNat then
        (din[i]).extractLsb' (8 * k) 8 ^^^ (ks[i.val]).extractLsb' (8 * k) 8
      else 0 := by
  rw [extract_eq_bufByte, xorBlock, bufByte_packWords]
  simp only [xorLane, show (4 * i.val + k.val) / 4 = i.val by omega,
    show (4 * i.val + k.val) % 4 = k.val by omega, byteOf]
  have h1 : din.getD i.val 0 = din[i] := by simp [Vector.getD]
  have h2 : ks.getD i.val 0 = ks[i.val] := by
    have : i.val < 16 := by omega
    simp [Vector.getD, this]
  rw [h1, h2]

/-! ### Recording an error -/

@[simp] theorem setErr_setErr (c d : ErrCode) (s : State) (h : c ≠ .none) : setErr d (setErr c s) = setErr c s := by
  by_cases hs : s.err = .none <;> simp [setErr, hs, h]

theorem setErr_of_err_ne_none {c : ErrCode} {s : State} (h : s.err ≠ .none) : setErr c s = s := by
  simp [setErr, h]

/-! ### Issue checks -/

theorem issueChecked_busy {s : State} (h : s.busy = true) (body : State → Result) :
    issueChecked s body = .next (setErr .busy s) := by
  simp [issueChecked, raiseError, h]

theorem issueChecked_idle {s : State} (h : s.busy = false) (body : State → Result) : issueChecked s body = body s := by
  simp [issueChecked, h]

/-! ### The commands -/

/-- What each command does to an engine that is not busy: its own checks in their order, then its effect. -/
def IssueEffect (i : Instr) (s t : State) : Prop :=
  match i with
  | .nop => t = s
  | .cfg =>
    (s.locked = true ∧ t = setErr .locked s) ∨
    (s.locked = false ∧ s.rounds.toInt ≤ 0 ∧ t = setErr .badRounds s) ∨
    (s.locked = false ∧ 0 < s.rounds.toInt ∧ t = { s with locked := true })
  | .gen =>
    (s.locked = false ∧ t = setErr .notConfigured s) ∨
    (s.locked = true ∧ t = beginLong .gen { s with ksv := false })
  | .geninc =>
    (s.locked = false ∧ t = setErr .notConfigured s) ∨
    (s.locked = true ∧ t = beginLong .geninc { s with ksv := false })
  | .xor =>
    (s.ksv = false ∧ t = setErr .noKeystream s) ∨
    (s.ksv = true ∧ 32 < s.len.toNat ∧ t = setErr .badLen s) ∨
    (s.ksv = true ∧ s.len.toNat ≤ 32 ∧ t = beginLong .xor s)
  | .qr => t = beginLong .qr s
  | .clr => t = { s with ks := Vector.replicate 16 0, dout := Vector.replicate 8 0, ksv := false }
  | .clrerr => t = { s with err := .none }

theorem exec_busy {s : State} (h : s.busy = true) (i : Instr) : exec i s = .next (setErr .busy s) := by
  cases i <;> exact if_pos h

/-- On an idle engine every command answers a next state, and IssueEffect says which. -/
theorem exec_idle {s : State} (h : s.busy = false) (i : Instr) : ∃ t, exec i s = .next t ∧ IssueEffect i s t := by
  cases i with
  | nop => exact ⟨s, if_neg (by simp [h]), rfl⟩
  | cfg =>
    simp only [exec, execCfg, issueChecked_idle h, raiseError, IssueEffect]
    by_cases hl : s.locked = true
    · exact ⟨_, by rw [if_pos hl], .inl ⟨hl, rfl⟩⟩
    · by_cases hr : s.rounds.toInt ≤ 0
      · exact ⟨_, by rw [if_neg hl, if_pos hr], .inr (.inl ⟨by simpa using hl, hr, rfl⟩)⟩
      · exact ⟨_, by rw [if_neg hl, if_neg hr], .inr (.inr ⟨by simpa using hl, by omega, rfl⟩)⟩
  | gen =>
    simp only [exec, execGen, issueGenerate, issueChecked_idle h, raiseError, IssueEffect]
    by_cases hl : s.locked = true
    · exact ⟨_, by rw [if_pos hl], .inr ⟨hl, rfl⟩⟩
    · exact ⟨_, by rw [if_neg hl], .inl ⟨by simpa using hl, rfl⟩⟩
  | geninc =>
    simp only [exec, execGeninc, issueGenerate, issueChecked_idle h, raiseError, IssueEffect]
    by_cases hl : s.locked = true
    · exact ⟨_, by rw [if_pos hl], .inr ⟨hl, rfl⟩⟩
    · exact ⟨_, by rw [if_neg hl], .inl ⟨by simpa using hl, rfl⟩⟩
  | xor =>
    simp only [exec, execXor, issueChecked_idle h, raiseError, IssueEffect]
    by_cases hk : s.ksv = true
    · by_cases hn : 32 < s.len.toNat
      · exact ⟨_, by simp only [hk, hn]; rfl, .inr (.inl ⟨hk, hn, rfl⟩)⟩
      · exact ⟨_, by simp only [hk, hn]; rfl, .inr (.inr ⟨hk, by omega, rfl⟩)⟩
    · have hk' : s.ksv = false := by simpa using hk
      exact ⟨_, by simp only [hk']; rfl, .inl ⟨hk', rfl⟩⟩
  | qr => exact ⟨_, if_neg (by simp [h]), rfl⟩
  | clr => exact ⟨_, if_neg (by simp [h]), rfl⟩
  | clrerr => exact ⟨_, if_neg (by simp [h]), rfl⟩

/-- Everything a command can answer (R202): the BUSY error, or its effect on an idle engine. -/
theorem exec_cases {i : Instr} {s t : State} (h : exec i s = .next t) :
    (s.busy = true ∧ t = setErr .busy s) ∨ (s.busy = false ∧ IssueEffect i s t) := by
  by_cases hb : s.busy = true
  · rw [exec_busy hb] at h; injection h with h; exact .inl ⟨hb, h.symm⟩
  · have hb' : s.busy = false := by simpa using hb
    obtain ⟨u, hu, he⟩ := exec_idle hb' i
    rw [hu] at h; injection h with h; exact .inr ⟨hb', h ▸ he⟩

theorem exec_total (i : Instr) (s : State) : ∃ t, exec i s = .next t := by
  by_cases hb : s.busy = true
  · exact ⟨_, exec_busy hb i⟩
  · obtain ⟨t, ht, -⟩ := exec_idle (by simpa using hb) i
    exact ⟨t, ht⟩

/-! ### Issuing a word and writing a register -/

/-- Everything a write to CMD can do (R202). -/
theorem issue_cases (w : Word) (s : State) :
    (s.busy = true ∧ issue w s = .next (setErr .busy s)) ∨
    (s.busy = false ∧ (∃ e, decode w = .error e) ∧ issue w s = .next (setErr .illegalCmd s)) ∨
    (s.busy = false ∧ ∃ i t, decode w = .ok i ∧ issue w s = .next t ∧ IssueEffect i s t) := by
  by_cases hb : s.busy = true
  · refine .inl ⟨hb, ?_⟩
    unfold issue
    split
    · exact exec_busy hb _
    · exact issueChecked_busy hb _
  · have hb' : s.busy = false := by simpa using hb
    refine .inr ?_
    cases hd : decode w with
    | ok i =>
      obtain ⟨t, ht, he⟩ := exec_idle hb' i
      exact .inr ⟨hb', i, t, rfl, by simp only [issue, hd, ht], he⟩
    | error e => exact .inl ⟨hb', ⟨e, rfl⟩, by simp only [issue, hd]; exact issueChecked_idle hb' _⟩

/-- The registers a host can write outside CMD, and whether the write needs LOCKED = 0 (R66, R68). -/
def Reg.lockable : Reg → Bool
  | .rounds => true
  | .key _ => true
  | _ => false

/-- Everything a host write to a register other than CMD can do (R66, R68, R69). -/
theorem writeReg_cases {r : Reg} (hr : r ≠ .cmd) (v : Word) (s : State) :
    writeReg r v s = .next s ∨
    (s.busy = true ∧ writeReg r v s = .next (setErr .busy s)) ∨
    (s.busy = false ∧ r.lockable = true ∧ s.locked = true ∧ writeReg r v s = .next (setErr .locked s)) ∨
    (s.busy = false ∧ (r.lockable = true → s.locked = false) ∧ writeReg r v s = .next (setReg r v s)) := by
  cases hb : s.busy <;> cases hl : s.locked <;> cases r <;>
    simp_all [writeReg, writeLockable, writeOperand, raiseError, Reg.lockable]

theorem writeReg_total (r : Reg) (v : Word) (s : State) : ∃ t, writeReg r v s = .next t := by
  by_cases hr : r = .cmd
  · subst hr
    rcases issue_cases v s with ⟨-, h⟩ | ⟨-, -, h⟩ | ⟨-, -, t, -, h, -⟩ <;> exact ⟨_, h⟩
  · rcases writeReg_cases hr v s with h | ⟨-, h⟩ | ⟨-, -, -, h⟩ | ⟨-, -, h⟩ <;> exact ⟨_, h⟩

/-! ### Accesses and steps -/

theorem accessRefusal_eq_none {off : Int} {n : Nat} : accessRefusal off n = none ↔ accessOk off n = true := by
  unfold accessRefusal accessOk
  cases accessWidthOk n <;> cases offsetInWindow off <;> cases offsetAligned off <;> simp

/-- An access within the interface always takes its step. -/
theorem hostAccess_total {a : Access} (h : a.ok = true) (s : State) : ∃ t, hostAccess a s = .next t := by
  cases a with
  | read off n => exact ⟨_, by simp only [hostAccess, accessRefusal_eq_none.mpr h]; rfl⟩
  | write off n v =>
    obtain ⟨t, ht⟩ := writeReg_total (regAt off.toNat) v s
    exact ⟨t, by simp only [hostAccess, accessRefusal_eq_none.mpr h, ht]⟩

/-- Everything a host access that takes a step can be: a read, or a write, of a register. -/
theorem hostAccess_cases {a : Access} {s t : State} (h : hostAccess a s = .next t) :
    (∃ off n, a = .read off n ∧ accessOk off n = true ∧ t = readReg (regAt off.toNat) s) ∨
    (∃ off n v, a = .write off n v ∧ accessOk off n = true ∧ writeReg (regAt off.toNat) v s = .next t) := by
  cases a with
  | read off n =>
    left
    simp only [hostAccess] at h
    split at h
    · cases h
    · injection h with h
      exact ⟨off, n, rfl, accessRefusal_eq_none.mp (by assumption), h.symm⟩
  | write off n v =>
    right
    simp only [hostAccess] at h
    split at h
    · cases h
    · exact ⟨off, n, v, rfl, accessRefusal_eq_none.mp (by assumption), h⟩

/-- A read changes only the answers and the number of draws. -/
theorem readReg_cases (r : Reg) (s : State) :
    readReg r s = answer (regValue r s) s ∨ (s.busy = true ∧ readReg r s = answerDraw s) := by
  unfold readReg
  split
  · rename_i h
    simp only [isInFlight, Bool.and_eq_true] at h
    exact .inr ⟨h.1, rfl⟩
  · exact .inl rfl

/-- Everything the reset step can answer. -/
theorem resetStep_cases (o : Option Access) (s : State) :
    resetStep o s = resetRegisters s ∨ resetStep o s = answerDraw (resetRegisters s) := by
  unfold resetStep
  split
  · exact .inl rfl
  · exact .inl rfl
  · split
    · exact .inl rfl
    · exact .inr rfl

/-- Everything a step can be (R73): a quiet step, a host access, the engine's turn or a reset. -/
theorem step_cases {s t : State} (h : step s = .next t) :
    (s.inputs = [] ∧ t = engineStep s) ∨
    (∃ a rest, s.inputs = .host a :: rest ∧ hostAccess a { s with inputs := rest } = .next t) ∨
    (∃ rest, s.inputs = .engine :: rest ∧ t = engineStep { s with inputs := rest }) ∨
    (∃ o rest, s.inputs = .reset o :: rest ∧ t = resetStep o { s with inputs := rest }) := by
  unfold step at h
  split at h
  · rename_i hi
    injection h with h
    exact .inl ⟨hi, h.symm⟩
  · rename_i i rest hi
    cases i with
    | host a => exact .inr (.inl ⟨a, rest, hi, h⟩)
    | engine =>
      injection h with h
      exact .inr (.inr (.inl ⟨rest, hi, h.symm⟩))
    | reset o =>
      injection h with h
      exact .inr (.inr (.inr ⟨o, rest, hi, h.symm⟩))

end Sys2Proof.Machine
end

