-- ==== Sys2Proof/Laws/Step.lean ====
section
/-! SUPPORT. What one step can do, said once: the completion step by its pending command, and every step as one of five
kinds. Invariants and whole-machine rules follow from these by cases. -/

namespace Sys2Proof.Machine

open Sys2Proof

/-- The completion step (R240), by what is pending. -/
theorem engineStep_cases (s : State) :
    (s.pend = none ∧ engineStep s = s) ∨
    (s.pend = some .gen ∧ engineStep s = generate s) ∨
    (s.pend = some .geninc ∧ engineStep s = generate (advancePos s)) ∨
    (s.pend = some .xor ∧ engineStep s = completeXor s) ∨
    (s.pend = some .qr ∧ engineStep s = completeQr s) := by
  unfold engineStep
  split <;> simp_all [completeGen, completeGeninc]

@[simp] theorem setReg_setReg (r : Reg) (v : Word) (s : State) : setReg r v (setReg r v s) = setReg r v s := by
  cases r <;> simp [setReg]

theorem setErr_err_cases (c : ErrCode) (s : State) : (setErr c s).err = s.err ∨ s.err = .none := by
  by_cases h : s.err = .none <;> simp [h]

/-- A step whose input is the host's write at an offset of the window is the write of the register there (R66 to R69). -/
theorem step_regWrite (s : State) {off : Nat} (h4 : off % 4 = 0) (h : off ≤ 0xFC) (v : Word) (rest : List Input) :
    step { s with inputs := .host (regWrite off v) :: rest } = writeReg (regAt off) v { s with inputs := rest } := by
  have ho : accessOk (off : Int) 4 = true := by simp [accessOk, accessWidthOk, offsetInWindow, offsetAligned]; omega
  show hostAccess (regWrite off v) _ = _
  simp only [regWrite, hostAccess, accessRefusal_eq_none.mpr ho, Int.toNat_natCast]

/-- A step whose input is the host's read at an offset of the window is the read of the register there (R65). -/
theorem step_regRead (s : State) {off : Nat} (h4 : off % 4 = 0) (h : off ≤ 0xFC) (rest : List Input) :
    step { s with inputs := .host (regRead off) :: rest } = .next (readReg (regAt off) { s with inputs := rest }) := by
  have ho : accessOk (off : Int) 4 = true := by simp [accessOk, accessWidthOk, offsetInWindow, offsetAligned]; omega
  show hostAccess (regRead off) _ = _
  simp only [regRead, hostAccess, accessRefusal_eq_none.mpr ho, Int.toNat_natCast]

/-- The five kinds of step (R73). -/
inductive StepKind (s t : State) : Prop where
  /-- The engine's turn, or a step without an input: the completion step. -/
  | completion (l : List Input) (h : s.inputs = [] ∧ l = [] ∨ s.inputs = .engine :: l)
      (e : t = engineStep { s with inputs := l })
  /-- Reset. -/
  | reset (o : Option Access) (rest : List Input) (h : s.inputs = .reset o :: rest)
      (e : ∃ d r, t = { State.reset with inputs := rest, draws := d, replies := r })
  /-- A host access that changes no register but ERR: a read, an ignored write, or an error. -/
  | quiet (a : Access) (rest : List Input) (h : s.inputs = .host a :: rest)
      (e : t = { s with inputs := rest, draws := t.draws, replies := t.replies, err := t.err })
      (herr : t.err = s.err ∨ s.err = .none)
  /-- A write that lands in a register. -/
  | write (r : Reg) (v : Word) (a : Access) (rest : List Input) (h : s.inputs = .host a :: rest) (hb : s.busy = false)
      (hl : r.lockable = true → s.locked = false) (e : t = setReg r v { s with inputs := rest })
  /-- A legal command word written to CMD of an engine that is not busy. -/
  | command (i : Instr) (off : Int) (n : Nat) (w : Word) (rest : List Input)
      (h : s.inputs = .host (.write off n w) :: rest) (ho : accessOk off n = true) (hr : regAt off.toNat = .cmd)
      (hd : decode w = .ok i) (hb : s.busy = false) (e : IssueEffect i { s with inputs := rest } t)

theorem step_kind {s t : State} (h : step s = .next t) : StepKind s t := by
  rcases step_cases h with ⟨hi, e⟩ | ⟨a, rest, hi, e⟩ | ⟨rest, hi, e⟩ | ⟨o, rest, hi, e⟩
  · refine .completion [] (.inl ⟨hi, rfl⟩) ?_
    rw [e, ← hi]
  · rcases hostAccess_cases e with ⟨off, n, rfl, ho, rfl⟩ | ⟨off, n, v, rfl, ho, e⟩
    · rcases readReg_cases (regAt off.toNat) { s with inputs := rest } with e | ⟨-, e⟩ <;> rw [e] <;>
        exact .quiet _ rest hi rfl (.inl rfl)
    · by_cases hr : regAt off.toNat = .cmd
      · rw [hr] at e
        rcases issue_cases v { s with inputs := rest } with ⟨hb, f⟩ | ⟨hb, -, f⟩ | ⟨hb, i, u, hd, f, hf⟩ <;>
          rw [show writeReg .cmd v _ = issue v _ from rfl, f] at e <;> injection e with e <;> subst e
        · exact .quiet _ rest hi rfl (setErr_err_cases .busy s)
        · exact .quiet _ rest hi rfl (setErr_err_cases .illegalCmd s)
        · exact .command i off n v rest hi ho hr hd hb hf
      · rcases writeReg_cases hr v { s with inputs := rest } with f | ⟨hb, f⟩ | ⟨hb, hl, hk, f⟩ | ⟨hb, hl, f⟩ <;>
          rw [f] at e <;> injection e with e <;> subst e
        · exact .quiet _ rest hi rfl (.inl rfl)
        · exact .quiet _ rest hi rfl (setErr_err_cases .busy s)
        · exact .quiet _ rest hi rfl (setErr_err_cases .locked s)
        · exact .write (regAt off.toNat) v _ rest hi hb hl rfl
  · exact .completion rest (.inr hi) e
  · refine .reset o rest hi ?_
    rcases resetStep_cases o { s with inputs := rest } with f | f <;> rw [e, f] <;> exact ⟨_, _, rfl⟩

/-- A run goes on after a step that answers a next state. -/
theorem run_succ_next {s t : State} (h : step s = .next t) (k : Nat) :
    Sys2Proof.core.run (k + 1) s = Sys2Proof.core.run k t := by
  have h' : Sys2Proof.core.step s = .next t := h
  simp only [Host.Core.run, h']

/-- A run stops at a refusal. -/
theorem run_succ_refused {s : State} {r : Refusal} (h : step s = .refused r) (k : Nat) :
    Sys2Proof.core.run (k + 1) s = .refused r := by
  have h' : Sys2Proof.core.step s = .refused r := h
  simp only [Host.Core.run, h']

end Sys2Proof.Machine
end

