-- ==== Sys2Proof/Laws/Driver.lean ====
section
/-! SUPPORT. One lemma per operation of the stream driver: what the loop over a buffer computes, what each line of a host
program does to an engine that is not busy, and that a block's lines on the engine compute the driver's block. -/

namespace Sys2Proof.Machine

open Sys2Proof

/-! ### Buffers -/

theorem cryptChunk_length (ks : Vector Byte 32) (chunk : List Byte) (h : chunk.length ≤ 32) :
    (cryptChunk ks chunk).length = chunk.length := by
  simp [cryptChunk, h]

/-- XOR with the same keystream twice gives back the bytes (R151). -/
theorem cryptChunk_cryptChunk (ks : Vector Byte 32) (chunk : List Byte) (h : chunk.length ≤ 32) :
    cryptChunk ks (cryptChunk ks chunk) = chunk := by
  apply List.ext_getElem?
  intro j
  by_cases hj : j < chunk.length
  · have hk : j < 32 := by omega
    simp [cryptChunk, hj, hk]
  · rw [List.getElem?_eq_none (by simp [cryptChunk]; omega), List.getElem?_eq_none (by omega)]

theorem cryptBlocks_length (ks : Nat → Vector Byte 32) (m i : Nat) (data : List Byte) (h : data.length ≤ 32 * m) :
    (cryptBlocks ks m i data).length = data.length := by
  induction m generalizing i data with
  | zero => simp_all [cryptBlocks]
  | succ m ih =>
    simp only [cryptBlocks, List.length_append, Config.ksBytes]
    rw [ih _ _ (by simp; omega), cryptChunk_length _ _ (by simp)]
    simp; omega

theorem le_nblocks (size : Nat) : size ≤ 32 * nblocks size := by simp only [nblocks, Config.ksBytes]; omega

theorem cryptBuffer_length (ks : Nat → Vector Byte 32) (data : List Byte) : (cryptBuffer ks data).length = data.length :=
  cryptBlocks_length ks _ 0 data (le_nblocks _)

/-- Byte 32*b + j of the output is byte 32*b + j of the data XORed with byte j of the keystream of block i + b. -/
theorem cryptBlocks_getElem? (ks : Nat → Vector Byte 32) (m i : Nat) (data : List Byte) (h : data.length ≤ 32 * m) (b : Nat)
    (j : Fin 32) (hd : 32 * b + j.val < data.length) :
    (cryptBlocks ks m i data)[32 * b + j.val]? = some (data[32 * b + j.val] ^^^ (ks (i + b))[j]) := by
  induction m generalizing i data b with
  | zero => omega
  | succ m ih =>
    simp only [cryptBlocks, Config.ksBytes]
    have hl := cryptChunk_length (ks i) (data.take 32) (by simp)
    rcases b with _ | b
    · rw [List.getElem?_append_left (by rw [hl]; simp; omega)]
      simp only [cryptChunk, List.getElem?_zipWith]
      simp [show j.val < data.length by omega]
    · have h32 : (data.take 32).length = 32 := by simp; omega
      rw [List.getElem?_append_right (by rw [hl, h32]; omega), hl, h32,
        show 32 * (b + 1) + j.val - 32 = 32 * b + j.val by omega,
        ih (i + 1) (data.drop 32) (by simp; omega) b (by simp; omega)]
      simp only [List.getElem_drop, show i + 1 + b = i + (b + 1) by omega,
        show 32 + (32 * b + j.val) = 32 * (b + 1) + j.val by omega]

/-- The loop of a procedure, where its running variables are vars and its positions and nonces keys. -/
theorem streamBlocks_eq {σ : Type} (k : Vector Word 8) (n : Nat) (next : BlockSource σ) (keys : Nat → DWord × DWord)
    (vars : Nat → σ) (m i : Nat) (data : List Byte)
    (h : ∀ j, i ≤ j → j < i + m → next j (vars j) = (keys j, vars (j + 1))) :
    streamBlocks k n next m i data (vars i) =
      (cryptBlocks (fun j => block k n (keys j).1 (keys j).2) m i data, vars (i + m)) := by
  induction m generalizing i data with
  | zero => rfl
  | succ m ih =>
    simp only [streamBlocks, h i (by omega) (by omega), cryptBlocks]
    rw [ih (i + 1) _ fun j h1 h2 => h j (by omega) (by omega), show i + 1 + m = i + (m + 1) by omega]

/-- The running variables of an encryption before block i. -/
def encryptVars (start : DWord) (sink : Option (List DWord)) (calls i : Nat) : EncryptVars where
  pos := start + BitVec.ofNat 64 i
  sink := sink.map (· ++ (List.range i).map fun j => Config.nonceSource (calls + j))
  calls := if sink.isSome then calls + i else calls

theorem pos_succ (start : DWord) (i : Nat) : start + BitVec.ofNat 64 i + 1 = start + BitVec.ofNat 64 (i + 1) := by
  rw [BitVec.ofNat_add, BitVec.add_assoc]; rfl

theorem encryptNext_vars (start : DWord) (sink : Option (List DWord)) (calls i : Nat) :
    encryptNext i (encryptVars start sink calls i) =
      ((start + BitVec.ofNat 64 (i + 1), if sink.isSome then Config.nonceSource (calls + i) else 0),
        encryptVars start sink calls (i + 1)) := by
  cases sink <;> simp [encryptNext, encryptVars, List.range_succ, Nat.add_assoc] <;> exact pos_succ start i

/-- encrypt as a whole (R182): block i uses position start + i + 1 and, with a sink, the nonce of call i. -/
theorem encrypt_eq (k : Vector Word 8) (n : Nat) (data : List Byte) (start : DWord) (sink : Option (List DWord))
    (calls : Nat) :
    encrypt k n data start sink calls =
      (cryptBuffer (fun i => block k n (start + BitVec.ofNat 64 (i + 1))
        (if sink.isSome then Config.nonceSource (calls + i) else 0)) data,
       sink.map (· ++ (List.range (nblocks data.length)).map fun j => Config.nonceSource (calls + j))) := by
  have h0 : ({ pos := start, sink := sink, calls := calls } : EncryptVars) = encryptVars start sink calls 0 := by
    cases sink <;> simp [encryptVars]
  have h := streamBlocks_eq k n encryptNext _ (encryptVars start sink calls) (nblocks data.length) 0 data
    fun j _ _ => encryptNext_vars start sink calls j
  simp only [encrypt, h0, h, Nat.zero_add]
  rfl

/-- decrypt as a whole (R184). -/
theorem decrypt_eq (k : Vector Word 8) (n : Nat) (data : List Byte) (start : DWord) (nonces : Option (List DWord)) :
    decrypt k n data start nonces =
      if nonceUnderrun nonces data.length then .error .nonceUnderrun
      else .ok (cryptBuffer (fun i => block k n (start + BitVec.ofNat 64 (i + 1))
        (match nonces with | none => 0 | some ns => ns.getD i 0)) data) := by
  have h := streamBlocks_eq k n (decryptNext nonces)
    (fun i => (start + BitVec.ofNat 64 (i + 1), match nonces with | none => 0 | some ns => ns.getD i 0))
    (fun i => start + BitVec.ofNat 64 i) (nblocks data.length) 0 data
    (fun j _ _ => by cases nonces <;> simp [decryptNext] <;> exact pos_succ start j)
  simp only [decrypt]
  congr 2
  exact congrArg Prod.fst (by simpa using h)

/-! ### Lines -/

@[simp] theorem andThen_next {α β : Type} (a : α) (f : α → Host.Outcome β Fault Refusal) : andThen (.next a) f = f a := rfl

theorem andThen_assoc {α β γ : Type} (r : Host.Outcome α Fault Refusal) (f : α → Host.Outcome β Fault Refusal)
    (g : β → Host.Outcome γ Fault Refusal) : andThen (andThen r f) g = andThen r fun a => andThen (f a) g := by
  cases r <;> rfl

theorem runLines_cons {l : Line} {s t : State} (h : runLine l s = .next t) (ls : List Line) :
    runLines (l :: ls) s = runLines ls t := by
  simp only [runLines, h, andThen_next]

theorem runLines_append (ls ms : List Line) (s : State) :
    runLines (ls ++ ms) s = andThen (runLines ls s) (runLines ms) := by
  induction ls generalizing s with
  | nil => rfl
  | cons l ls ih =>
    simp only [List.cons_append, runLines, andThen_assoc]
    exact congrArg _ (funext ih)

theorem runLines_append_next {ls : List Line} {s t : State} (h : runLines ls s = .next t) (ms : List Line) :
    runLines (ls ++ ms) s = runLines ms t := by
  rw [runLines_append, h, andThen_next]

theorem regAt_offset (r : Reg) : regAt r.offset = r := by
  cases r <;> try rfl
  all_goals (rename_i i; revert i; decide)

theorem offset_in_window (r : Reg) : r.offset % 4 = 0 ∧ r.offset ≤ 0xFC := by
  cases r <;> try decide
  all_goals (rename_i i; revert i; decide)

/-- WR is the register's write. -/
theorem runLine_wr (r : Reg) (v : Word) (s : State) : runLine (wr r v) s = writeReg r v s := by
  have h := step_regWrite s (offset_in_window r).1 (offset_in_window r).2 v s.inputs
  rwa [regAt_offset] at h

/-- RD is the register's read. -/
theorem runLine_rd (r : Reg) (s : State) : runLine (rd r) s = .next (readReg r s) := by
  have h := step_regRead s (offset_in_window r).1 (offset_in_window r).2 s.inputs
  rwa [regAt_offset] at h

theorem readReg_idle (r : Reg) {s : State} (h : s.busy = false) : readReg r s = answer (regValue r s) s := by
  simp [readReg, isInFlight, h]

theorem readReg_status (s : State) : readReg .status s = answer (statusWord s) s := by
  have h : isInFlight .status s = false := by
    unfold isInFlight
    rcases s.pend with _ | _ | _ | _ | _ <;> cases s.busy <;> rfl
  simp [readReg, h, regValue]

theorem statusWord_busy (s : State) : (statusWord s).getLsbD 0 = s.busy := by
  simp only [statusWord]
  cases s.busy <;> cases s.locked <;> cases s.ksv <;> cases s.err <;> rfl

/-- The completion step neither reads nor changes the answers. -/
theorem engineStep_replies (s : State) (l : List Word) :
    engineStep { s with replies := l } = { engineStep s with replies := l } := by
  rcases engineStep_cases s with ⟨h, e⟩ | ⟨h, e⟩ | ⟨h, e⟩ | ⟨h, e⟩ | ⟨h, e⟩ <;> rw [e] <;>
    simp only [engineStep, h] <;> rfl

theorem engineStep_busy {s : State} (h : s.pend ≠ none) : (engineStep s).busy = false := by
  rcases engineStep_cases s with ⟨hp, -⟩ | ⟨-, e⟩ | ⟨-, e⟩ | ⟨-, e⟩ | ⟨-, e⟩
  · exact absurd hp h
  all_goals rw [e]; rfl

@[simp] theorem engineStep_replies_eq (s : State) : (engineStep s).replies = s.replies := by
  rcases engineStep_cases s with ⟨-, e⟩ | ⟨-, e⟩ | ⟨-, e⟩ | ⟨-, e⟩ | ⟨-, e⟩ <;> rw [e] <;> rfl

/-- WAIT with a command pending (R97): the polls reads answer STATUS with BUSY = 1, the command completes, and one more
read answers STATUS with BUSY = 0. -/
theorem waitLoop_pending (polls : Nat) {s : State} (hb : s.busy = true) (hp : s.pend ≠ none) :
    waitLoop polls s = .next { engineStep s with
      replies := statusWord (engineStep s) :: (List.replicate polls (statusWord s) ++ s.replies) } := by
  induction polls generalizing s with
  | zero =>
    show andThen (.next (engineStep s)) (runLine (rd .status)) = _
    rw [andThen_next, runLine_rd, readReg_status]
    simp [answer]
  | succ polls ih =>
    show andThen (runLine (rd .status) s) _ = _
    rw [runLine_rd, readReg_status, andThen_next]
    have hs : (lastAnswer (answer (statusWord s) s)).getLsbD 0 = true := by
      show (statusWord s).getLsbD 0 = true
      rw [statusWord_busy, hb]
    rw [if_pos hs, ih (by exact hb) (by exact hp)]
    simp only [answer, engineStep_replies, Host.Outcome.next.injEq]
    have hw : statusWord { engineStep s with replies := statusWord s :: s.replies } = statusWord (engineStep s) := rfl
    have hw' : statusWord { s with replies := statusWord s :: s.replies } = statusWord s := rfl
    rw [hw, hw', List.replicate_succ', List.append_assoc]
    rfl

/-! ### The lines of a block on a constructed engine that is not busy -/

/-- The engine is the one a procedure set out on: constructed with key k and round count rounds, not busy, with the error
code and the standing inputs it had. -/
structure Driven (s0 s : State) : Prop where
  busy : s.busy = false
  locked : s.locked = true
  key : s.key = s0.key
  rounds : s.rounds = s0.rounds
  err : s.err = s0.err
  inputs : s.inputs = s0.inputs

theorem writeReg_operand {r : Reg} {s : State} (hb : s.busy = false) (hr : r ≠ .cmd) (hl : r.lockable = false) (v : Word) :
    writeReg r v s = .next (setReg r v s) := by
  cases r <;> simp_all [writeReg, writeOperand, setReg, Reg.lockable]

theorem runLines_setNonce {s : State} (hb : s.busy = false) (v : DWord) (ls : List Line) :
    runLines (setNonceLines v ++ ls) s = runLines ls { s with nonceLo := lowWord v, nonceHi := highWord v } := by
  refine (runLines_cons ((runLine_wr _ _ _).trans (writeReg_operand hb (by simp) rfl _)) _).trans ?_
  exact runLines_cons ((runLine_wr _ _ _).trans (writeReg_operand (by exact hb) (by simp) rfl _)) _

theorem runLines_setPos {s : State} (hb : s.busy = false) (v : DWord) (ls : List Line) :
    runLines (setPosLines v ++ ls) s = runLines ls { s with posLo := lowWord v, posHi := highWord v } := by
  refine (runLines_cons ((runLine_wr _ _ _).trans (writeReg_operand hb (by simp) rfl _)) _).trans ?_
  exact runLines_cons ((runLine_wr _ _ _).trans (writeReg_operand (by exact hb) (by simp) rfl _)) _

/-- The lines of a list of operand writes are the writes. -/
theorem runLines_ofFn_wr {n : Nat} (f : Fin n → Reg) (w : Fin n → Word) (hf : ∀ i, f i ≠ .cmd ∧ (f i).lockable = false)
    {s : State} (hb : s.busy = false) :
    runLines (List.ofFn fun i => wr (f i) (w i)) s =
      .next ((List.finRange n).foldl (fun s i => setReg (f i) (w i) s) s) := by
  rw [List.ofFn_eq_map]
  generalize List.finRange n = l
  induction l generalizing s with
  | nil => rfl
  | cons i l ih =>
    rw [List.map_cons, runLines_cons ((runLine_wr _ _ _).trans (writeReg_operand hb (hf i).1 (hf i).2 _))]
    exact ih (by simpa using hb)

theorem vector_set_all (a b : Vector Word 8) :
    ((((((((a.set 0 b[0]).set 1 b[1]).set 2 b[2]).set 3 b[3]).set 4 b[4]).set 5 b[5]).set 6 b[6]).set 7 b[7]) = b := by
  ext i hi
  simp only [Vector.getElem_set]
  rcases (by omega : i = 0 ∨ i = 1 ∨ i = 2 ∨ i = 3 ∨ i = 4 ∨ i = 5 ∨ i = 6 ∨ i = 7) with
    rfl | rfl | rfl | rfl | rfl | rfl | rfl | rfl <;> simp

/-- SETKEY on an engine that is not busy and not constructed. -/
theorem runLines_setKey {s : State} (hb : s.busy = false) (hl : s.locked = false) (k : Vector Word 8) :
    runLines (setKeyLines k) s = .next { s with key := k } := by
  have hw : ∀ (l : List (Fin 8)) (t : State), t.busy = false → t.locked = false →
      runLines (l.map fun i => wr (.key i) k[i]) t = .next (l.foldl (fun t i => setReg (.key i) k[i] t) t) := by
    intro l
    induction l with
    | nil => intros; rfl
    | cons i l ih =>
      intro t hb hl
      have h : writeReg (.key i) k[i] t = .next (setReg (.key i) k[i] t) := by simp [writeReg, writeLockable, hb, hl]
      rw [List.map_cons, runLines_cons ((runLine_wr _ _ _).trans h)]
      exact ih _ (by simpa using hb) (by simpa using hl)
  rw [setKeyLines, List.ofFn_eq_map, hw _ s hb hl]
  have h8 : List.finRange 8 = [0, 1, 2, 3, 4, 5, 6, 7] := by decide
  simp only [h8, List.foldl, setReg, Host.Outcome.next.injEq]
  have h := vector_set_all s.key k
  simp only [State.mk.injEq, true_and, and_true]
  exact h

theorem runLines_loadDin {s : State} (hb : s.busy = false) (bytes : List Byte) :
    runLines (loadDinLines bytes) s = .next { s with din := dinWords bytes } := by
  rw [loadDinLines, runLines_ofFn_wr (fun i => .din i) _ (fun i => ⟨by simp, rfl⟩) hb]
  have h8 : List.finRange 8 = [0, 1, 2, 3, 4, 5, 6, 7] := by decide
  simp only [h8, List.foldl, setReg, Host.Outcome.next.injEq]
  have h := vector_set_all s.din (dinWords bytes)
  simp only [State.mk.injEq, true_and, and_true]
  exact h

/-- RD DOUT0 .. DOUT7 answers the eight words, the last read first in replies. -/
theorem runLines_readDout {s : State} (hb : s.busy = false) :
    runLines readDoutLines s = .next { s with replies := s.dout.toList.reverse ++ s.replies } := by
  have key : ∀ (l : List (Fin 8)) (t : State), t.busy = false →
      runLines (l.map fun i => rd (.dout i)) t =
        .next { t with replies := (l.map fun i => t.dout[i]).reverse ++ t.replies } := by
    intro l
    induction l with
    | nil => intro t _; rfl
    | cons i l ih =>
      intro t ht
      rw [List.map_cons, runLines_cons (runLine_rd _ _), readReg_idle _ ht, ih (answer (regValue (.dout i) t) t) ht]
      simp [answer, regValue]
  rw [readDoutLines, List.ofFn_eq_map, key _ s hb]
  congr 2
  congr 1
  refine congrArg List.reverse ?_
  apply List.ext_getElem <;> simp

/-- What is kept of the words of DOUT is their first len bytes. -/
theorem keptBytes_readDout (len : Nat) (s : State) :
    keptBytes len { s with replies := s.dout.toList.reverse ++ s.replies } = (s.dout.toList.flatMap wordBytes).take len := by
  simp only [keptBytes]
  rw [List.take_left' (by simp), List.reverse_reverse]

/-- Byte 4*i + k of the bytes of a list of words is byte k of word i. -/
theorem flatMap_wordBytes_getElem? (l : List Word) (j : Nat) :
    (l.flatMap wordBytes)[j]? = l[j / 4]?.map fun w => byteOf w (j % 4) := by
  induction l generalizing j with
  | nil => simp
  | cons w l ih =>
    rw [List.flatMap_cons]
    by_cases hj : j < 4
    · rw [List.getElem?_append_left (by simpa [wordBytes] using hj)]
      rcases (by omega : j = 0 ∨ j = 1 ∨ j = 2 ∨ j = 3) with rfl | rfl | rfl | rfl <;> rfl
    · obtain ⟨q, rfl⟩ : ∃ q, j = q + 4 := ⟨j - 4, by omega⟩
      rw [List.getElem?_append_right (by simp [wordBytes]), show (wordBytes w).length = 4 from rfl, Nat.add_sub_cancel,
        ih, show (q + 4) / 4 = q / 4 + 1 by omega, show (q + 4) % 4 = q % 4 by omega]
      rfl

/-- The XOR datapath on the bytes LOADDIN packed, with a keystream block standing in KS[0..7], is the driver's block. -/
theorem xorBlock_chunk (bytes : List Byte) (hn : bytes.length ≤ 32) (m : Matrix) :
    ((xorBlock (BitVec.ofNat 32 bytes.length) (dinWords bytes) m).toList.flatMap wordBytes).take bytes.length =
      cryptChunk (Vector.ofFn fun j => (ser m)[j.val]'(by omega)) bytes := by
  have hlen : (BitVec.ofNat 32 bytes.length).toNat = bytes.length := by simp; omega
  apply List.ext_getElem?
  intro j
  by_cases hj : j < bytes.length
  · have hi : j / 4 < 8 := by omega
    have hq : 4 * (j / 4) + j % 4 = j := by omega
    have hx := xorBlock_byte (BitVec.ofNat 32 bytes.length) (dinWords bytes) m ⟨j / 4, hi⟩ ⟨j % 4, by omega⟩
    rw [hlen, extract_eq_bufByte (dinWords bytes), dinWords, bufByte_packWords] at hx
    simp only [hq, hj, if_true] at hx
    have hj32 : j < 32 := by omega
    have hs : (ser m)[j]'(by omega) = (m[j / 4]).extractLsb' (8 * (j % 4)) 8 := by simp [ser, bufByte, byteOf]
    rw [List.getElem?_take_of_lt hj, flatMap_wordBytes_getElem?]
    simp only [cryptChunk, List.getElem?_zipWith]
    simp [hi, hj, hj32, hs, byteOf]
    simpa [dinWords, hj] using hx
  · rw [List.getElem?_eq_none (by simp; omega), List.getElem?_eq_none (by simp [cryptChunk]; omega)]

/-- A long command that is accepted, and the WAIT after it: the completed command, and the answers of the WAIT. -/
theorem runLines_command {i : Instr} {s c : State} {op : LongOp} {s' : State} (h : exec i s = .next c)
    (hc : c = beginLong op s') (polls : Nat) (ls : List Line) :
    runLines (issueLine i :: .wait polls :: ls) s = runLines ls { engineStep c with
      replies := statusWord (engineStep c) :: (List.replicate polls (statusWord c) ++ c.replies) } := by
  have hi : writeReg .cmd (encode i) s = .next c := by rw [← h]; cases i <;> rfl
  refine (runLines_cons (l := issueLine i) ((runLine_wr _ _ _).trans hi) _).trans ?_
  exact runLines_cons (l := .wait polls) (s := c) (waitLoop_pending polls (by rw [hc]; rfl) (by rw [hc]; simp [beginLong])) ls

/-- GEN and GENINC are accepted by a driven engine (R140, R141). -/
theorem Driven.exec_gen {s0 s : State} (h : Driven s0 s) : exec .gen s = .next (beginLong .gen { s with ksv := false }) := by
  obtain ⟨c, hc, he⟩ := exec_idle h.busy .gen
  rcases he with ⟨hl, -⟩ | ⟨-, he⟩
  · simp [h.locked] at hl
  · rw [hc, he]

theorem Driven.exec_geninc {s0 s : State} (h : Driven s0 s) :
    exec .geninc s = .next (beginLong .geninc { s with ksv := false }) := by
  obtain ⟨c, hc, he⟩ := exec_idle h.busy .geninc
  rcases he with ⟨hl, -⟩ | ⟨-, he⟩
  · simp [h.locked] at hl
  · rw [hc, he]

/-- XOR is accepted by an engine that is not busy, with a keystream and at most 32 bytes (R150). -/
theorem exec_xor_accepted {s : State} (hb : s.busy = false) (hk : s.ksv = true) (hn : s.len.toNat ≤ 32) :
    exec .xor s = .next (beginLong .xor s) := by
  obtain ⟨c, hc, he⟩ := exec_idle hb .xor
  rcases he with ⟨h, -⟩ | ⟨-, h, -⟩ | ⟨-, -, he⟩
  · simp [hk] at h
  · omega
  · rw [hc, he]

/-- The XOR steps of a block (R183): the engine is left as it was but for DIN, LEN, DOUT and the answers, and the bytes
kept are the driver's. -/
theorem runLines_xor {s0 s : State} (hs : Driven s0 s) (hk : s.ksv = true) (bytes : List Byte) (hn : bytes.length ≤ 32)
    (polls : Nat) :
    ∃ t, runLines (xorLines bytes polls) s = .next t ∧ Driven s0 t ∧ t.pos = s.pos ∧
      keptBytes bytes.length t = cryptChunk (Vector.ofFn fun j => (ser s.ks)[j.val]'(by omega)) bytes := by
  have hx := exec_xor_accepted (s := { s with din := dinWords bytes, len := BitVec.ofNat 32 bytes.length }) hs.busy hk
    (by simp; omega)
  have hw := writeReg_operand (r := .len) (s := { s with din := dinWords bytes }) hs.busy (by simp) rfl
    (BitVec.ofNat 32 bytes.length)
  generalize hc : beginLong .xor { s with din := dinWords bytes, len := BitVec.ofNat 32 bytes.length } = c at hx
  have e : engineStep c = completeXor { s with din := dinWords bytes, len := BitVec.ofNat 32 bytes.length } := by
    rw [← hc]; rfl
  generalize hd : ({ engineStep c with
    replies := statusWord (engineStep c) :: (List.replicate polls (statusWord c) ++ c.replies) } : State) = d
  have hdriven : Driven s0 d := by
    rw [← hd, e]; exact ⟨rfl, hs.locked, hs.key, hs.rounds, hs.err, hs.inputs⟩
  refine ⟨{ d with replies := d.dout.toList.reverse ++ d.replies }, ?_, ?_, ?_, ?_⟩
  · simp only [xorLines, List.append_assoc, List.cons_append, List.nil_append]
    rw [runLines_append_next (runLines_loadDin hs.busy bytes), runLines_cons ((runLine_wr _ _ _).trans hw)]
    simp only [setReg]
    rw [runLines_command hx hc.symm, hd, runLines_readDout hdriven.busy]
  · exact ⟨hdriven.busy, hdriven.locked, hdriven.key, hdriven.rounds, hdriven.err, hdriven.inputs⟩
  · rw [← hd, e]; rfl
  · rw [keptBytes_readDout, ← hd, e]
    exact xorBlock_chunk bytes hn s.ks

/-- The keystream block of KS after a generation (R131, R132). -/
theorem block_of_ks {s0 s : State} {b : DWord × DWord}
    (h : s.ks = perm (initMatrix s0.key b.1 b.2) s0.roundCount) :
    (Vector.ofFn fun j : Fin 32 => (ser s.ks)[j.val]'(by omega)) = block s0.key s0.roundCount b.1 b.2 := by
  simp only [h, block, block64]

/-- The lines of one block with the running counter compute the driver's block for the position after POS, and leave that
position in POS (R183). -/
theorem runLines_runningBlock {s0 s : State} (hs : Driven s0 s) (b : DWord × DWord) (hp : b.1 = s.pos + 1)
    (bytes : List Byte) (hn : bytes.length ≤ 32) (polls : Nat × Nat) :
    ∃ t, runLines (runningBlockLines b bytes polls) s = .next t ∧ Driven s0 t ∧ t.pos = b.1 ∧
      keptBytes bytes.length t = cryptChunk (block s0.key s0.roundCount b.1 b.2) bytes := by
  generalize hr : ({ s with nonceLo := lowWord b.2, nonceHi := highWord b.2 } : State) = r
  have hrd : Driven s0 r := by
    rw [← hr]; exact ⟨hs.busy, hs.locked, hs.key, hs.rounds, hs.err, hs.inputs⟩
  have hrp : r.pos + 1 = b.1 := by rw [hp, ← hr]; rfl
  have hrn : r.nonce = b.2 := by rw [← hr]; exact join64_high_low _
  have hg := hrd.exec_geninc
  generalize hc : beginLong .geninc { r with ksv := false } = c at hg
  have e : engineStep c = generate (advancePos c) := by rw [← hc]; rfl
  have hcr : Driven s0 (engineStep c) := by
    rw [e, ← hc]; exact ⟨rfl, hrd.locked, hrd.key, hrd.rounds, hrd.err, hrd.inputs⟩
  have hpos : (engineStep c).pos = b.1 := by
    rw [e, generate_pos, advancePos_pos, ← hc]; exact hrp
  have hks : (engineStep c).ks = perm (initMatrix s0.key b.1 b.2) s0.roundCount := by
    rw [e, generate_ks, advancePos_pos, advancePos_nonce, advancePos_roundCount, advancePos_key, ← hrp, ← hrn, ← hc]
    show perm (initMatrix r.key (r.pos + 1) r.nonce) r.rounds.toInt.toNat = _
    rw [hrd.key, hrd.rounds]; rfl
  have hv : (engineStep c).ksv = true := by rw [e]; rfl
  generalize hd : ({ engineStep c with
    replies := statusWord (engineStep c) :: (List.replicate polls.1 (statusWord c) ++ c.replies) } : State) = d
  have hdriven : Driven s0 d := by
    rw [← hd]; exact ⟨hcr.busy, hcr.locked, hcr.key, hcr.rounds, hcr.err, hcr.inputs⟩
  obtain ⟨t, ht, htd, htp, hkept⟩ := runLines_xor hdriven (by rw [← hd]; exact hv) bytes hn polls.2
  refine ⟨t, ?_, htd, ?_, ?_⟩
  · simp only [runningBlockLines, List.append_assoc, List.cons_append, List.nil_append]
    rw [runLines_setNonce hs.busy, hr, runLines_command hg hc.symm, hd, ht]
  · rw [htp, ← hd]; exact hpos
  · rw [hkept, block_of_ks (s0 := s0) (b := b) (by rw [← hd]; exact hks)]

/-- The lines of one block with generated position and nonce compute the driver's block for them (R185). -/
theorem runLines_generatedBlock {s0 s : State} (hs : Driven s0 s) (b : DWord × DWord) (bytes : List Byte)
    (hn : bytes.length ≤ 32) (polls : Nat × Nat) :
    ∃ t, runLines (generatedBlockLines b bytes polls) s = .next t ∧ Driven s0 t ∧
      keptBytes bytes.length t = cryptChunk (block s0.key s0.roundCount b.1 b.2) bytes := by
  generalize hq : ({ s with posLo := lowWord b.1, posHi := highWord b.1 } : State) = q
  have hqb : q.busy = false := by rw [← hq]; exact hs.busy
  generalize hr : ({ q with nonceLo := lowWord b.2, nonceHi := highWord b.2 } : State) = r
  have hrd : Driven s0 r := by
    rw [← hr, ← hq]; exact ⟨hs.busy, hs.locked, hs.key, hs.rounds, hs.err, hs.inputs⟩
  have hrp : r.pos = b.1 := by rw [← hr, ← hq]; exact join64_high_low _
  have hrn : r.nonce = b.2 := by rw [← hr]; exact join64_high_low _
  have hg := hrd.exec_gen
  generalize hc : beginLong .gen { r with ksv := false } = c at hg
  have e : engineStep c = generate c := by rw [← hc]; rfl
  have hcr : Driven s0 (engineStep c) := by
    rw [e, ← hc]; exact ⟨rfl, hrd.locked, hrd.key, hrd.rounds, hrd.err, hrd.inputs⟩
  have hks : (engineStep c).ks = perm (initMatrix s0.key b.1 b.2) s0.roundCount := by
    rw [e, generate_ks, ← hrp, ← hrn, ← hc]
    show perm (initMatrix r.key r.pos r.nonce) r.rounds.toInt.toNat = _
    rw [hrd.key, hrd.rounds]; rfl
  have hv : (engineStep c).ksv = true := by rw [e]; rfl
  generalize hd : ({ engineStep c with
    replies := statusWord (engineStep c) :: (List.replicate polls.1 (statusWord c) ++ c.replies) } : State) = d
  have hdriven : Driven s0 d := by
    rw [← hd]; exact ⟨hcr.busy, hcr.locked, hcr.key, hcr.rounds, hcr.err, hcr.inputs⟩
  obtain ⟨t, ht, htd, -, hkept⟩ := runLines_xor hdriven (by rw [← hd]; exact hv) bytes hn polls.2
  refine ⟨t, ?_, htd, ?_⟩
  · simp only [generatedBlockLines, List.append_assoc, List.cons_append, List.nil_append]
    rw [runLines_setPos hs.busy, hq, runLines_setNonce hqb, hr, runLines_command hg hc.symm, hd, ht]
  · rw [hkept, block_of_ks (s0 := s0) (b := b) (by rw [← hd]; exact hks)]

/-- The loop on the engine computes what the procedure's loop computes, where each block's lines do and keep the relation
of running variables and engine. -/
theorem engineBlocks_eq {σ : Type} (k : Vector Word 8) (n : Nat) (next : BlockSource σ) (lines : BlockLines)
    (waits : Nat → Nat × Nat) (R : σ → State → Prop)
    (hblock : ∀ i v s (bytes : List Byte), R v s → bytes.length ≤ 32 →
      ∃ t, runLines (lines (next i v).1 bytes (waits i)) s = .next t ∧ R (next i v).2 t ∧
        keptBytes bytes.length t = cryptChunk (block k n (next i v).1.1 (next i v).1.2) bytes)
    (m i : Nat) (data : List Byte) (v : σ) (s : State) (h : R v s) :
    ∃ t, engineBlocks next lines waits m i data v s =
        .next ((streamBlocks k n next m i data v).1, (streamBlocks k n next m i data v).2, t) ∧
      R (streamBlocks k n next m i data v).2 t := by
  induction m generalizing i data v s with
  | zero => exact ⟨s, rfl, h⟩
  | succ m ih =>
    obtain ⟨t, ht, hR, hk⟩ := hblock i v s (data.take Config.ksBytes) h (by simp [Config.ksBytes])
    obtain ⟨u, hu, hU⟩ := ih (i + 1) (data.drop Config.ksBytes) (next i v).2 t hR
    refine ⟨u, ?_, hU⟩
    simp only [engineBlocks, ht, andThen_next, hu, hk, streamBlocks]

end Sys2Proof.Machine
end

