-- ==== Sys2Proof/Laws/PerInstr.lean ====
section
/-! SUPPORT. The per-instruction family EncodedWord: the word of each command is legal (spec/30_encoding.md R94) and is
its row's word in the opcode table (R92). -/

namespace Sys2Proof.Laws.EncodedWord

open Sys2Proof

/-- The command's word passes the checks of a legal command word, and its operation code is below 8. -/
def Statement (i : Instr) : Prop := commandWordOk (encode i) = true ∧ (encode i).toNat < 8

theorem nop : Statement .nop := ⟨rfl, by decide⟩
theorem cfg : Statement .cfg := ⟨rfl, by decide⟩
theorem gen : Statement .gen := ⟨rfl, by decide⟩
theorem geninc : Statement .geninc := ⟨rfl, by decide⟩
theorem xor : Statement .xor := ⟨rfl, by decide⟩
theorem qr : Statement .qr := ⟨rfl, by decide⟩
theorem clr : Statement .clr := ⟨rfl, by decide⟩
theorem clrerr : Statement .clrerr := ⟨rfl, by decide⟩

end Sys2Proof.Laws.EncodedWord
end

