-- ==== Sys2Proof/Tests/Slice0.lean ====
section
/-! SUPPORT. Tests of the model. Expected values come from spec/95_test_vectors.md or from the encodings of
spec/30_encoding.md; the last part holds, for every statement with hypotheses, a state or operands that meet them. -/

namespace Sys2Proof.Tests

open Sys2Proof Sys2Proof.Machine

/-! ### Well-formedness: each check refuses an ill-formed term -/

theorem test_rsvd_nonzero_refused : rsvdZero 0x00000102 = false := by decide
theorem test_op_reserved_refused : opAssigned 0x00000008 = false := by decide
theorem test_command_word_refused : commandWordOk 0x00000100 = false ∧ commandWordOk 0x000000FF = false := by decide
theorem test_width_refused : accessWidthOk 1 = false ∧ accessWidthOk 8 = false := by decide
theorem test_offset_beyond_refused : offsetInWindow 0x100 = false ∧ offsetInWindow (-4) = false := by decide
theorem test_offset_misaligned_refused : offsetAligned 2 = false ∧ offsetAligned 0xFD = false := by decide
theorem test_access_ok : accessOk 0 4 = true ∧ accessOk 0xFC 4 = true ∧ accessOk 0xFD 4 = false := by decide

/-! ### Decoding: each word written out from R90 and R92, RSVD then OP -/

theorem test_decode_nop : decode 0b000000000000000000000000_00000000#32 = .ok .nop := by rfl
theorem test_decode_cfg : decode 0b000000000000000000000000_00000001#32 = .ok .cfg := by rfl
theorem test_decode_gen : decode 0b000000000000000000000000_00000010#32 = .ok .gen := by rfl
theorem test_decode_geninc : decode 0b000000000000000000000000_00000011#32 = .ok .geninc := by rfl
theorem test_decode_xor : decode 0b000000000000000000000000_00000100#32 = .ok .xor := by rfl
theorem test_decode_qr : decode 0b000000000000000000000000_00000101#32 = .ok .qr := by rfl
theorem test_decode_clr : decode 0b000000000000000000000000_00000110#32 = .ok .clr := by rfl
theorem test_decode_clrerr : decode 0b000000000000000000000000_00000111#32 = .ok .clrerr := by rfl
theorem test_decode_reserved_op : decode 0b000000000000000000000000_00001000#32 = .error .reservedOp := by rfl
theorem test_decode_reserved_bits : decode 0b000000000000000000000001_00000010#32 = .error .reservedBits := by rfl

/-! ### Small states -/

/-- An engine constructed with key 1..8. -/
def constructed : State := { State.reset with locked := true, key := #v[1, 2, 3, 4, 5, 6, 7, 8] }

/-- KS of V-B1. -/
def ksB1 : Matrix :=
  #v[0x8d1c4018, 0x655b34cc, 0x0f2b3f52, 0x67535fe6, 0x050a4afa, 0xc449f474, 0xf85300d9, 0xa49bf56c,
     0xdce2bd5a, 0x4367a28b, 0x8b391a2f, 0xf3f0c160, 0xb2dfc464, 0x2c6cc9dd, 0xb57509f7, 0x779f9935]

/-- An engine whose KS is V-B1, DIN "Hello, World!" and LEN 13 (V-X1). -/
def hello : State :=
  { constructed with
    ksv := true, ks := ksB1, len := 13
    din := #v[0x6c6c6548, 0x57202c6f, 0x646c726f, 0x00000021, 0, 0, 0, 0] }

/-- The reset state with one input. -/
def withInput (i : Input) : State := { State.reset with inputs := [i] }

/-- An engine with a long command pending, as its issue leaves it. -/
def pending (op : LongOp) : State :=
  { hello with ksv := (op == .xor || op == .qr), busy := true, pend := some op }

/-- An engine with a long command pending and one input. -/
def pendingWith (op : LongOp) (i : Input) : State := { pending op with inputs := [i] }

/-! ### Vectors of spec/95_test_vectors.md -/

-- V-Q1 and V-Q3
theorem test_qr_vq1 : qrRegs #v[0x11111111, 0x01020304, 0x9b8d6f43, 0x01234567]
    = #v[0xea2a92f4, 0xcb1cf8ce, 0x4581472e, 0x5881c4bb] := by decide
theorem test_qr_vq3_wraps : qrRegs #v[0xffffffff, 0xffffffff, 0xffffffff, 0xffffffff]
    = #v[0xf0000ffd, 0x88790878, 0x0110fdef, 0x010ffdf0] := by decide

-- The matrix of V-B1 after its first column pass, and V-B6, one double-round
theorem test_column_pass : colPass (initMatrix #v[1, 2, 3, 4, 5, 6, 7, 8] 1 0)
    = #v[0xd787bfec, 0x3652aab7, 0xd0f8d008, 0xf1d32bcf, 0xa95cd117, 0x1dc61fc2, 0xa4235ad6, 0x05ce75cb,
         0x5945fe24, 0x8709ca78, 0xfadee466, 0x10b95abc, 0xe0de9caf, 0x22999752, 0xcda96afd, 0xab40ef94] := by decide
theorem test_gen_vb6 : (engineStep { constructed with rounds := 1, posLo := 1, busy := true, pend := some .gen }).ks
    = #v[0xeb28f31b, 0x6771266c, 0x6f3bd8b3, 0x3a4e982d, 0xf6abf6f6, 0x0ea511e4, 0x01bd5eb8, 0xc0396fbe,
         0xe5f4e03f, 0x72f3ccaa, 0x3dc6594e, 0xfcf85a62, 0x531cc4fe, 0xba2cedbd, 0x55ceabac, 0x12ad16db] := by decide

-- V-B1, ten double-rounds
theorem test_gen_vb1 : perm (initMatrix #v[1, 2, 3, 4, 5, 6, 7, 8] 1 0) 10 = ksB1 := by decide +kernel

-- V-B8, the split of row 3
theorem test_row3_vb8 : ((initMatrix constructed.key 0x0123456789abcdef 0xfedcba9876543210).toList.drop 12)
    = [0x89abcdef, 0x01234567, 0x76543210, 0xfedcba98] := by decide

-- V-G3 (wrap) and V-G4 (carry into POS_HI)
theorem test_geninc_vg3_wraps :
    (advancePos { State.reset with posLo := 0xffffffff, posHi := 0xffffffff }).posLo = 0 ∧
    (advancePos { State.reset with posLo := 0xffffffff, posHi := 0xffffffff }).posHi = 0 := by decide
theorem test_geninc_vg4_carries : (advancePos { State.reset with posLo := 0xffffffff }).posLo = 0 ∧
    (advancePos { State.reset with posLo := 0xffffffff }).posHi = 1 := by decide

-- The serialization of V-B1, its first and its last byte of each of the first two words
theorem test_serializer_vb1 : (ser ksB1).toList.take 8 = [0x18, 0x40, 0x1c, 0x8d, 0xcc, 0x34, 0x5b, 0x65] := by decide

-- V-X1, with the bytes past LEN of V-X5, and V-X4
theorem test_xor_vx1 : (engineStep { hello with busy := true, pend := some .xor }).dout
    = #v[0xe1702550, 0x327b18a3, 0x6b474d3d, 0x000000c7, 0, 0, 0, 0] := by decide
theorem test_xor_vx5_masks : xorBlock 13 (hello.din.set 3 0xffffff21) ksB1
    = #v[0xe1702550, 0x327b18a3, 0x6b474d3d, 0x000000c7, 0, 0, 0, 0] := by decide
theorem test_xor_vx4_full : xorBlock 32 (Vector.replicate 8 0xffffffff) ksB1
    = #v[0x72e3bfe7, 0x9aa4cb33, 0xf0d4c0ad, 0x98aca019, 0xfaf5b505, 0x3bb60b8b, 0x07acff26, 0x5b640a93] := by decide

-- V-X6 (BAD_LEN) and V-X8 (NO_KEYSTREAM is checked first)
theorem test_xor_vx6 : exec .xor { hello with len := 33 } = .next { hello with len := 33, err := .badLen } := by rfl
theorem test_xor_vx8 : exec .xor { State.reset with len := 40 } = .next { State.reset with len := 40, err := .noKeystream } := by
  rfl

-- V-C1, V-C2, V-C3, V-C5
theorem test_cfg_vc1 : step (State.reset.withFetchWord 32 1) = .next { State.reset with locked := true } := by rfl
theorem test_cfg_vc2_vc3 : exec .cfg { State.reset with rounds := 0 } = .next { State.reset with rounds := 0, err := .badRounds } ∧
    exec .cfg { State.reset with rounds := 0x80000000 } = .next { State.reset with rounds := 0x80000000, err := .badRounds } :=
  ⟨rfl, rfl⟩
theorem test_cfg_vc5_status : statusWord (setErr .locked { State.reset with locked := true }) = 0x00000302 := by decide

-- V-C8, V-C9, V-C10
theorem test_gen_vc8 : step (State.reset.withFetchWord 32 2) = .next { State.reset with err := .notConfigured } := by rfl
theorem test_illegal_vc9_vc10 : step (withInput (.host (regWrite 0 0x00000008))) = .next { State.reset with err := .illegalCmd } ∧
    step (withInput (.host (regWrite 0 0x00000102))) = .next { State.reset with err := .illegalCmd } := ⟨rfl, rfl⟩

-- V-C11: BUSY is checked before decoding
theorem test_busy_vc11 : step { State.reset with busy := true, pend := some .qr, inputs := [.host (regWrite 0 0x00000108)] }
    = .next { State.reset with busy := true, pend := some .qr, err := .busy } := by rfl

-- V-C13, and V-C14: two ignored writes and a read of a reserved offset
theorem test_nop_vc13 : step (State.reset.withFetchWord 32 0) = .next State.reset := by rfl
theorem test_ignored_vc14 : step (withInput (.host (regWrite 0x0CC 1))) = .next State.reset ∧
    step (withInput (.host (regWrite 0x004 0xffffffff))) = .next State.reset ∧
    step (withInput (.host (regRead 0x00C))) = .next { State.reset with replies := [0] } := ⟨rfl, rfl, rfl⟩

-- V-C12 and the example of R166
theorem test_clr_vc12 : exec .clr hello
    = .next { hello with ks := Vector.replicate 16 0, dout := Vector.replicate 8 0, ksv := false } := by rfl
theorem test_clrerr : exec .clrerr { State.reset with err := .locked } = .next State.reset := by rfl

-- An access of another width, beyond the window or misaligned has no step (R62)
theorem test_access_refused : step (withInput (.host (.read 0 1))) = .refused .accessWidth ∧
    step (withInput (.host (.write 0x100 4 0))) = .refused .beyondWindow ∧
    step (withInput (.host (.read 2 4))) = .refused .misaligned := ⟨rfl, rfl, rfl⟩

-- V-D2 with V-B1's keystream, V-D1 and V-D5
theorem test_driver_vd2 : cryptBuffer (fun _ => Vector.ofFn fun j => (ser ksB1)[j.val]'(by omega))
    [0x48, 0x65, 0x6c, 0x6c, 0x6f, 0x2c, 0x20, 0x57, 0x6f, 0x72, 0x6c, 0x64, 0x21]
    = [0x50, 0x25, 0x70, 0xe1, 0xa3, 0x18, 0x7b, 0x32, 0x3d, 0x4d, 0x47, 0x6b, 0xc7] := by decide
theorem test_driver_vd1 (k : Vector Word 8) (n : Nat) : encrypt k n [] 5 (some []) 0 = ([], some []) := by rfl
theorem test_driver_vd5 (k : Vector Word 8) (n : Nat) :
    decrypt k n (List.replicate 40 0) 0 (some [0]) = .error .nonceUnderrun := by rfl

-- V-D3, and V-D4's block for the nonce 0xdeadbeef
theorem test_driver_vd3 : (encrypt constructed.key 10 (List.ofFn fun j : Fin 40 => BitVec.ofNat 8 j) 0 none 0).1
    = [0x18, 0x41, 0x1e, 0x8e, 0xc8, 0x31, 0x5d, 0x62, 0x5a, 0x36, 0x21, 0x04, 0xea, 0x52, 0x5d, 0x68,
       0xea, 0x5b, 0x18, 0x16, 0x60, 0xe1, 0x5f, 0xd3, 0xc1, 0x19, 0x49, 0xe3, 0x70, 0xe8, 0x85, 0xbb,
       0x4d, 0x25, 0x94, 0xc0, 0xef, 0xf1, 0xe1, 0xb1] := by decide +kernel
theorem test_driver_vd4 : cryptChunk (block constructed.key 10 1 0xdeadbeef)
    [0x48, 0x65, 0x6c, 0x6c, 0x6f, 0x2c, 0x20, 0x57, 0x6f, 0x72, 0x6c, 0x64, 0x21]
    = [0x6b, 0x5e, 0xf4, 0x41, 0x41, 0xeb, 0xd2, 0xba, 0x44, 0x74, 0x84, 0x27, 0x7e] := by decide +kernel

/-- A generator that adds its call to the end of a list of calls. -/
def logging (name : Nat) : Generator (List (Nat × Nat)) := fun i calls => (0, calls ++ [(name, i)])

-- R185: each generator is called once a block, the position's (0) first, in increasing i
theorem test_generator_calls (k : Vector Word 8) (n : Nat) :
    (encryptGen k n (List.replicate 40 0) (logging 0) (logging 1) []).2 = [(0, 0), (1, 0), (0, 1), (1, 1)] := by rfl

-- LOADDIN of "Hello, World!" (P1, lines 17-24), and a construction with a malformed key (R180)
theorem test_loaddin : dinWords [0x48, 0x65, 0x6c, 0x6c, 0x6f, 0x2c, 0x20, 0x57, 0x6f, 0x72, 0x6c, 0x64, 0x21]
    = #v[0x6c6c6548, 0x57202c6f, 0x646c726f, 0x00000021, 0, 0, 0, 0] := by decide
theorem test_malformed_key : newOnEngine [1, 2, 3] State.reset = .next (.error .malformedKey, State.reset) := by rfl

-- The encodings of SETPOS, CFG and WAIT (R96, R97, P1)
theorem test_setpos : setPosLines 0x0123456789abcdef
    = [.bus (.write 0x030 4 0x89abcdef), .bus (.write 0x034 4 0x01234567)] := by decide
theorem test_setkey : (setKeyLines #v[1, 2, 3, 4, 5, 6, 7, 8]).getLast? = some (.bus (.write 0x02C 4 8)) := by decide

-- WAIT stops at the first read with bit 0 = 0 (R97): on an idle engine the first, on a busy one the one after completion
theorem test_wait_idle : waitLoop 2 State.reset = .next { State.reset with replies := [0] } := by rfl
theorem test_wait_busy : waitLoop 1 { State.reset with busy := true, pend := some .qr }
    = .next { State.reset with replies := [0, 1] } := by rfl

-- What the host keeps of DOUT (R183): bytes 0 to LEN - 1, little-endian
theorem test_kept_bytes : keptBytes 6 { State.reset with replies := [8, 7, 6, 5, 4, 3, 0x00002c6f, 0x6c6c6548, 99] }
    = [0x48, 0x65, 0x6c, 0x6c, 0x6f, 0x2c] := by decide

/-! ### Witnesses: the hypotheses of each statement are met -/

theorem witness_inv : Inv hello ∧ Inv (pending .gen) ∧ Inv (pending .xor) := by
  have hk : hello.ks = perm (initMatrix hello.key 1 0) hello.rounds.toInt.toNat := by decide +kernel
  refine ⟨⟨by decide, by decide, by decide, by decide, by decide, fun _ => ⟨1, 0, hk⟩⟩,
    ⟨by decide, by decide, by decide, by decide, by decide, ?_⟩,
    ⟨by decide, by decide, by decide, by decide, by decide, fun _ => ⟨1, 0, hk⟩⟩⟩
  intro h
  exact absurd h (by decide)

theorem witness_ResetStepRestoresEveryRegister :
    (pendingWith .gen (.reset none)).inputs = .reset none :: [] ∧
    step (pendingWith .gen (.reset none)) = .next State.reset ∧ (pending .gen).locked = true := ⟨rfl, rfl, rfl⟩

theorem witness_AccessOverlappingResetIsLost :
    (withInput (.reset (some (.write 0x008 4 1)))).inputs = .reset (some (.write 0x008 4 1)) :: [] ∧
    accessOk 0x0FC 4 = true ∧ (withInput (.reset (some (.read 0x0FC 4)))).inputs = .reset (some (.read 0x0FC 4)) :: [] :=
  ⟨rfl, rfl, rfl⟩

theorem witness_DecodeByFields : (0x00000100 : Word).extractLsb' 8 24 ≠ 0 ∧ (0x00000007 : Word).extractLsb' 8 24 = 0 ∧
    (0x00000007 : Word).extractLsb' 0 8 = 0x07 ∧ 0x08 ≤ ((0x00000008 : Word).extractLsb' 0 8).toNat := by decide

-- A word just past the table, and one with the lowest reserved bit set
theorem witness_IllegalWordRaisesIllegalCmd : (0x00000100 : Word).extractLsb' 8 24 ≠ 0 ∧
    State.reset.busy = false ∧ 0x08 ≤ ((0x00000008 : Word).extractLsb' 0 8).toNat := by decide

theorem witness_StepRunsTheDecodedCommand : (withInput (.host (regWrite 0x000 5))).inputs = .host (regWrite 0x000 5) :: [] ∧
    decode 5 = .ok .qr := ⟨rfl, rfl⟩

theorem witness_FirstErrorIsKept : State.reset.err = .none ∧ ({ State.reset with err := .busy } : State).err ≠ .none := by
  decide

theorem witness_WriteWhileBusyIsDropped : (pending .gen).busy = true ∧
    step (pendingWith .gen (.host (regWrite 0x07C 1))) = .next { pending .gen with err := .busy } ∧
    step (pendingWith .gen (.host (regWrite 0x010 1))) = .next { pending .gen with err := .busy } ∧
    step (pendingWith .gen (.host (regWrite 0x040 1))) = .next { pending .gen with err := .busy } := ⟨rfl, rfl, rfl, rfl⟩

theorem witness_ErrChanges : step { State.reset with err := .busy, inputs := [.host (regWrite 0 7)] } = .next State.reset ∧
    step (withInput (.host (regWrite 0 8))) = .next { State.reset with err := .illegalCmd } := ⟨rfl, rfl⟩

theorem witness_NopChangesNothing : State.reset.busy = false ∧ (pending .qr).busy = true := by decide

theorem witness_CfgConstructsOrRaises :
    State.reset.busy = false ∧ State.reset.locked = false ∧
    (0x7FFFFFFF : Word) ≠ 0 ∧ (0x7FFFFFFF : Word).getLsbD 31 = false ∧ (0x80000000 : Word).getLsbD 31 = true ∧
    constructed.busy = false ∧ constructed.locked = true ∧ (pending .qr).busy = true := by decide

theorem witness_ClrDestroysTheOutputs : hello.busy = false ∧ (pending .gen).busy = true := by decide

theorem witness_ClrerrClearsTheErrorRecord : hello.busy = false ∧ (pending .gen).busy = true ∧
    ({ pending .gen with err := .busy } : State).err ≠ .none := by decide

theorem witness_QrIssuesAndCompletes : State.reset.busy = false ∧ (pending .qr).busy = true := by decide

theorem witness_GenIssuesAndCompletes : constructed.busy = false ∧ constructed.locked = true ∧
    State.reset.busy = false ∧ State.reset.locked = false ∧ (pending .gen).busy = true := by decide

theorem witness_GenincIssuesAndCompletes :
    ({ constructed with posLo := 0xffffffff, posHi := 0xffffffff } : State).busy = false ∧
    ({ constructed with posLo := 0xffffffff, posHi := 0xffffffff } : State).locked = true ∧
    State.reset.locked = false ∧ (pending .geninc).busy = true := by decide

theorem witness_XorIssuesAndCompletes :
    hello.busy = false ∧ hello.ksv = true ∧ ({ hello with len := 32 } : State).len.toNat ≤ 32 ∧
    32 < ({ hello with len := 33 } : State).len.toNat ∧ State.reset.ksv = false ∧ (pending .xor).busy = true := by decide

theorem witness_RotationIsCircular : (1 ≤ 31 ∧ 31 ≤ 31 ∧ 31 < 32) ∧ (1 ≤ 1 ∧ 0 < 32) ∧
    rotl32 0x80000001 1 = 0x00000003 := by decide

theorem witness_QuarterRoundStatements :
    (0x12131415 : Word).toNat = ((0x11111111 : Word).toNat + (0x01020304 : Word).toNat) % 2 ^ 32 ∧ (0x51721330 : Word) = ((0x01234567 : Word) ^^^ (0x12131415 : Word)).rotateLeft 16 ∧
    (0xecff8273 : Word).toNat = ((0x9b8d6f43 : Word).toNat + (0x51721330 : Word).toNat) % 2 ^ 32 ∧ (0xd8177edf : Word) = ((0x01020304 : Word) ^^^ (0xecff8273 : Word)).rotateLeft 12 ∧
    (0xea2a92f4 : Word).toNat = ((0x12131415 : Word).toNat + (0xd8177edf : Word).toNat) % 2 ^ 32 ∧ (0x5881c4bb : Word) = ((0x51721330 : Word) ^^^ (0xea2a92f4 : Word)).rotateLeft 8 ∧
    (0x4581472e : Word).toNat = ((0xecff8273 : Word).toNat + (0x5881c4bb : Word).toNat) % 2 ^ 32 ∧ (0xcb1cf8ce : Word) = ((0xd8177edf : Word) ^^^ (0x4581472e : Word)).rotateLeft 7 := by
  decide

theorem witness_OrderWithinAPassIsIrrelevant : ([3, 1, 0, 2] : List (Fin 4)).Perm [0, 1, 2, 3] := by decide

theorem witness_KeystreamBlockStandsInKs : (pending .gen).pend = some .gen := rfl

/-- An engine that agrees with pending .gen on what a GEN reads and differs elsewhere. -/
def pendingGenElsewhere : State := { pending .gen with q := #v[1, 2, 3, 4], len := 5, err := .busy, ks := Vector.replicate 16 9 }

theorem witness_GenerationReadsNothingElse : (pending .gen).pend = some .gen ∧ pendingGenElsewhere.pend = some .gen ∧
    (pending .gen).key = pendingGenElsewhere.key ∧ (pending .gen).rounds = pendingGenElsewhere.rounds ∧
    (pending .gen).posLo = pendingGenElsewhere.posLo ∧ (pending .gen).posHi = pendingGenElsewhere.posHi ∧
    (pending .gen).nonceLo = pendingGenElsewhere.nonceLo ∧ (pending .gen).nonceHi = pendingGenElsewhere.nonceHi ∧
    pendingGenElsewhere ≠ pending .gen := by decide

theorem witness_XorTwiceGivesBackTheData : (pending .xor).pend = some .xor ∧ 4 * 3 + 0 < (pending .xor).len.toNat := by
  decide

/-- An engine that agrees with pending .xor on byte 12 of DIN and KS only there and on its side of LEN. -/
def pendingXorElsewhere : State := { pending .xor with din := #v[1, 2, 3, 0xffffff21, 5, 6, 7, 8], len := 20 }

theorem witness_XorLanesAreIndependent : (pending .xor).pend = some .xor ∧ pendingXorElsewhere.pend = some .xor ∧
    ((pending .xor).din[3]).extractLsb' (8 * 0) 8 = (pendingXorElsewhere.din[3]).extractLsb' (8 * 0) 8 ∧
    ((pending .xor).ks[3]).extractLsb' (8 * 0) 8 = (pendingXorElsewhere.ks[3]).extractLsb' (8 * 0) 8 ∧
    (4 * 3 + 0 < (pending .xor).len.toNat ↔ 4 * 3 + 0 < pendingXorElsewhere.len.toNat) := by decide

theorem witness_RegisterMapOffsets : regAt 0x00C = .reserved ∧ regAt 0x044 = .reserved ∧ regAt 0x0BC = .reserved ∧
    regAt 0x0FC = .ks 15 ∧ regAt 0x02C = .key 7 ∧ regAt 0x05C = .q 3 ∧ regAt 0x07C = .din 7 ∧ regAt 0x09C = .dout 7 := by
  decide

theorem witness_OnlyAlignedWordAccessesHaveAStep :
    (withInput (.host (.read 0x0FC 4))).inputs = .host (.read 0x0FC 4) :: [] ∧
    ((4 : Nat) = 4 ∧ (0x0FC : Int) % 4 = 0 ∧ (0 : Int) ≤ 0x0FC ∧ (0x0FC : Int) ≤ 0x0FC) ∧
    (0x0FC : Int) < 0x100 ∧ (-4 : Int) < 0 ∧ (0x0FE : Int) % 4 ≠ 0 := by
  exact ⟨rfl, by decide, by decide, by decide, by decide⟩

theorem witness_WindowLiesAtBase : Config.base + 0x0FF < Config.base + 0x100 := by omega

theorem witness_ReadAnswersValueOrDraw : regAt 0x034 = .posHi ∧
    (pendingWith .geninc (.host (regRead 0x034))).inputs = .host (regRead 0x034) :: [] ∧
    (pending .geninc).busy = true ∧ (pending .geninc).pend = some .geninc ∧
    (withInput (.host (regRead 0x0BC))).busy = false ∧ regAt 0x0BC = .reserved ∧
    step (withInput (.host (regRead 0x0BC))) = .next { State.reset with replies := [0] } := ⟨rfl, rfl, rfl, rfl, rfl, rfl, rfl⟩

theorem witness_LockableRegisterWrites : (pending .gen).busy = true ∧ constructed.busy = false ∧ constructed.locked = true ∧
    State.reset.busy = false ∧ State.reset.locked = false := by decide

theorem witness_OperandRegisterWrites : State.reset.busy = false ∧ (pending .gen).busy = true := by decide

theorem witness_ReadOnlyWritesAreIgnored : writeReg (.dout 7) 1 (pending .xor) = .next (pending .xor) ∧
    step (pendingWith .xor (.host (regWrite 0x080 1))) = .next (pending .xor) ∧
    step (withInput (.host (regWrite 0x0FC 1))) = .next State.reset ∧
    step (withInput (.host (regWrite 0x044 1))) = .next State.reset := ⟨rfl, rfl, rfl, rfl⟩

theorem witness_RegisterWritesAreIdempotent : Reg.rounds ≠ .cmd ∧ writeReg .rounds 5 constructed
    = .next { constructed with err := .locked } ∧
    step (withInput (.host (regWrite 0x004 5))) = .next State.reset := ⟨by decide, rfl, rfl⟩

theorem witness_NoReadRevealsTheKey : hostAccess (.read 0x010 4) constructed = .next { constructed with replies := [0] } ∧
    hostAccess (.read 0x011 4) constructed = .refused .misaligned := ⟨rfl, rfl⟩

theorem witness_CompletionStep : (pendingWith .qr .engine).inputs = .engine :: [] ∧ (pendingWith .qr .engine).pend ≠ none ∧
    (withInput .engine).pend = none ∧ (pending .qr).inputs = [] := by decide

theorem witness_EveryPendingCommandCompletes : Inv (pending .xor) ∧ (∀ i ∈ (pending .xor).inputs, i.ok = true) := by
  exact ⟨witness_inv.2.2, by decide⟩

theorem witness_IdleEngineKeepsItsState : hello.inputs = [] ∧ hello.pend = none := by decide

theorem witness_OperandsAreFrozenWhileBusy : (pending .xor).busy = true ∧
    step (pendingWith .xor (.host (regWrite 0x060 1))) = .next { pending .xor with err := .busy } := ⟨rfl, rfl⟩

theorem witness_EveryStepKeepsTheInvariant : Inv hello ∧ step hello = .next hello := ⟨witness_inv.1, rfl⟩

theorem witness_ConstructionIsFixedUntilReset :
    step (State.reset.withFetchWord 32 1) = .next { State.reset with locked := true } ∧
    step { constructed with inputs := [.host (regWrite 0x008 1)] } = .next { constructed with err := .locked } := ⟨rfl, rfl⟩

theorem witness_BusySpansALongCommand :
    step (State.reset.withFetchWord 32 5) = .next { State.reset with busy := true, pend := some .qr } ∧
    step (pendingWith .gen (.reset none)) = .next State.reset ∧ (pending .gen).busy = true := ⟨rfl, rfl, rfl⟩

theorem witness_KeystreamValidChanges :
    step { pending .gen with inputs := [.engine] } = .next (engineStep (pending .gen)) ∧
    (pending .gen).ksv = false ∧ (engineStep (pending .gen)).ksv = true ∧
    step (hello.withFetchWord 32 2) = .next { hello with ksv := false, busy := true, pend := some .gen } :=
  ⟨rfl, rfl, rfl, rfl⟩

theorem witness_ResultsChangeOnlyByTheirCommands :
    step (hello.withFetchWord 32 6)
      = .next { hello with ks := Vector.replicate 16 0, dout := Vector.replicate 8 0, ksv := false } ∧
    ksB1 ≠ Vector.replicate 16 0 := ⟨rfl, by decide⟩

theorem witness_HiddenMatrixIsUnobservable : Sys2Proof.core.run 1 hello = .next hello ∧
    Sys2Proof.core.run 1 (withInput (.host (.read 1 4))) = .refused .misaligned := ⟨rfl, rfl⟩

theorem witness_SinkAndUnderrun : ([] : List Byte) = [] ∧ ([0] : List DWord).length < (40 + 31) / 32 ∧
    (32 + 31) / 32 ≤ ([0] : List DWord).length ∧ 32 * 1 + (7 : Fin 32).val < (List.replicate 40 (0 : Byte)).length := by
  decide

-- Generators that meet the premise of SinkRecordsEachNonce, with what is remembered before and between their calls
theorem witness_SinkRecordsEachNonce (i : Nat) :
    (fun i g => (BitVec.ofNat 64 i, g + 1) : Generator Nat) i (2 * i) = (BitVec.ofNat 64 i, 2 * i + 1) ∧
    (fun _ g => (0, g + 1) : Generator Nat) i (2 * i + 1) = (0, 2 * (i + 1)) := ⟨rfl, rfl⟩

theorem witness_ConstructionOnTheEngine : ([1, 2, 3, 4, 5, 6, 7, 8] : List Word).length = 8 ∧ State.reset.busy = false ∧
    State.reset.locked = false ∧ State.reset.err = .none ∧ 0 < (BitVec.ofInt 32 10).toInt ∧
    (BitVec.ofInt 32 0).toInt ≤ 0 ∧ (BitVec.ofInt 32 0x80000000).toInt ≤ 0 := by decide

theorem witness_EngineRealisesTheDriver : constructed.busy = false ∧ constructed.locked = true := by decide

theorem witness_EngineBlockIsTheDriversBlock : constructed.busy = false ∧ constructed.locked = true ∧
    (List.replicate 32 (0 : Byte)).length ≤ 32 := by decide

end Sys2Proof.Tests
end

section
/-! PROOFS. The bus window at BASE (spec/00_scope.md R17, spec/20_memory.md R60, R62): bus addresses against offsets, and
the refusal of every access outside the interface. -/

namespace Sys2Proof.Machine

open Sys2Proof

/-- An access outside the interface has a named reason (R62). -/
theorem accessRefusal_eq_some {off : Int} {n : Nat} (h : accessOk off n = false) : ∃ r, accessRefusal off n = some r := by
  rw [← Option.ne_none_iff_exists', ne_eq, accessRefusal_eq_none, h]
  decide

/-- An access outside the interface is refused in every state, the converse of hostAccess_total (R62). -/
theorem hostAccess_refused {a : Access} (h : a.ok = false) (s : State) : ∃ r, hostAccess a s = .refused r := by
  cases a with
  | read off n =>
    obtain ⟨r, hr⟩ := accessRefusal_eq_some h
    exact ⟨r, by simp only [hostAccess, hr]⟩
  | write off n v =>
    obtain ⟨r, hr⟩ := accessRefusal_eq_some h
    exact ⟨r, by simp only [hostAccess, hr]⟩

/-- An access at an offset outside 0x000 to 0x0FC is outside the interface, whatever its width (R62). -/
theorem accessOk_beyond_window {off : Int} (h : off < 0 ∨ 0x0FC < off) (n : Nat) : accessOk off n = false := by
  have hw : offsetInWindow off = false := by
    rw [offsetInWindow, Bool.and_eq_false_iff, decide_eq_false_iff_not, decide_eq_false_iff_not]
    omega
  simp [accessOk, hw]

/-- RegRead(off) is MemRead(BASE + off, 4) (R17). -/
theorem memRead_base_add (off : Nat) : memRead (Config.base + off) 4 = regRead off := by
  simp [memRead, regRead]

/-- RegWrite(off, v) is MemWrite(BASE + off, 4, v) (R17). -/
theorem memWrite_base_add (off : Nat) (v : Word) : memWrite (Config.base + off) 4 v = regWrite off v := by
  simp [memWrite, regWrite]

theorem base_mod_window : Config.base % 256 = 0 := Nat.mul_mod_right 256 Config.basePage

/-- An address below BASE or above BASE + 0x0FF lies at an offset outside the window, whichever value BASE has. -/
theorem accessOk_address_outside {addr : Nat} (h : addr < Config.base ∨ Config.base + 0x0FF < addr) (n : Nat) :
    accessOk ((addr : Int) - Config.base) n = false :=
  accessOk_beyond_window (by omega) n

/-- Settles O36: addresses and offsets differ by BASE, a multiple of 256, and an address outside the 256 bytes at BASE
gives an access outside the interface, which is refused. -/
theorem windowLiesAtBase : Obligations.WindowLiesAtBase := by
  refine ⟨fun off v => ⟨memRead_base_add off, memWrite_base_add off v⟩, base_mod_window, fun addr n v s h => ?_⟩
  have outside := accessOk_address_outside h n
  exact ⟨hostAccess_refused (a := memRead addr n) outside s, hostAccess_refused (a := memWrite addr n v) outside s⟩

end Sys2Proof.Machine
end

section
/-! PROOFS. What a step does to the construction, to BUSY and PEND and to the results (spec/10_state.md R29 to R40), said once:
the word that a command was decoded from, and every step as one of seven moves. -/

namespace Sys2Proof.Machine

open Sys2Proof

/-! ### Command words -/

theorem eq_opcode_of_decodeOp {op : BitVec 8} {i : Instr} (h : decodeOp op = .ok i) : op = i.opcode := by
  unfold decodeOp at h
  split at h <;> cases h <;> rename_i hop <;> exact BitVec.eq_of_toNat_eq hop

theorem eq_encode_of_decode {w : Word} {i : Instr} (h : decode w = .ok i) : w = encode i := by
  unfold decode at h
  split at h
  · rename_i hz
    have hop := congrArg BitVec.toNat (eq_opcode_of_decodeOp h)
    have hrs := congrArg BitVec.toNat hz
    simp only [opField, rsvdField, BitVec.extractLsb'_toNat, BitVec.toNat_ofNat, Nat.shiftRight_eq_div_pow] at hop hrs
    apply BitVec.eq_of_toNat_eq
    rw [encode, BitVec.toNat_setWidth_of_le (by decide), ← hop]
    omega
  · cases h

theorem regOfIndex_eq_cmd : ∀ k < 64, regOfIndex k = .cmd → k = 0 := by decide

theorem offset_eq_zero_of_regAt_eq_cmd {off : Int} {n : Nat} (ho : accessOk off n = true)
    (hr : regAt off.toNat = .cmd) : off = 0 := by
  simp only [accessOk, offsetInWindow, offsetAligned, Bool.and_eq_true, decide_eq_true_eq, beq_iff_eq] at ho
  obtain ⟨⟨-, h0, h1⟩, h4⟩ := ho
  have := regOfIndex_eq_cmd (off.toNat / 4) (by omega) hr
  omega

theorem isCommandWord_of_decode {off : Int} {n : Nat} {w : Word} {i : Instr} (ho : accessOk off n = true)
    (hr : regAt off.toNat = .cmd) (hd : decode w = .ok i) :
    (Input.host (.write off n w)).isCommandWord (encode i) = true := by
  obtain rfl := offset_eq_zero_of_regAt_eq_cmd ho hr
  simp [Input.isCommandWord, ho, eq_encode_of_decode hd]

/-! ### What a step does to the construction, to BUSY and PEND and to the results -/

/-- The step takes a legal word of the command i written to CMD. -/
def TakesWord (i : Instr) (s : State) : Prop :=
  ∃ j rest, s.inputs = j :: rest ∧ j.isCommandWord (encode i) = true

/-- The step takes a reset. -/
def TakesReset (s : State) : Prop := ∃ j rest, s.inputs = j :: rest ∧ j.isReset = true

/-- The step is the engine's. -/
def EngineTurn (s : State) : Prop := s.inputs = [] ∨ ∃ rest, s.inputs = .engine :: rest

/-- The command that a value of PEND names (R40). -/
def LongOp.instr : LongOp → Instr
  | .gen => .gen
  | .geninc => .geninc
  | .xor => .xor
  | .qr => .qr

/-- t holds what s holds of BUSY, PEND, LOCKED, KSV, KS and DOUT, of KEY and ROUNDS once constructed (R34), and of LEN while
a command is pending (R205). -/
structure Kept (s t : State) : Prop where
  busy : t.busy = s.busy
  pend : t.pend = s.pend
  locked : t.locked = s.locked
  ksv : t.ksv = s.ksv
  ks : t.ks = s.ks
  dout : t.dout = s.dout
  key : s.locked = true → t.key = s.key
  rounds : s.locked = true → t.rounds = s.rounds
  len : s.busy = true → t.len = s.len

/-- None of these is the error record, an input still to come, or what the host was answered. -/
theorem Kept.frame (s : State) (l : List Input) (d : Nat) (r : List Word) (c : ErrCode) :
    Kept s { s with inputs := l, draws := d, replies := r, err := c } :=
  ⟨rfl, rfl, rfl, rfl, rfl, rfl, fun _ => rfl, fun _ => rfl, fun _ => rfl⟩

theorem Kept.inputs (s : State) (l : List Input) : Kept s { s with inputs := l } := .frame s l s.draws s.replies s.err

theorem setReg_key {r : Reg} (h : r.lockable = false) (v : Word) (s : State) : (setReg r v s).key = s.key := by
  cases r with
  | key i => cases h
  | _ => rfl

theorem setReg_rounds {r : Reg} (h : r.lockable = false) (v : Word) (s : State) : (setReg r v s).rounds = s.rounds := by
  cases r with
  | rounds => cases h
  | _ => rfl

/-- A write that lands in a register finds an idle engine, and KEY and ROUNDS only before construction (R66, R68). -/
theorem Kept.setReg {s : State} {r : Reg} (hb : s.busy = false) (hl : r.lockable = true → s.locked = false) (v : Word)
    (rest : List Input) : Kept s (setReg r v { s with inputs := rest }) := by
  have unlockable (h : s.locked = true) : r.lockable = false := by
    rw [← Bool.not_eq_true]
    intro hr
    rw [hl hr] at h
    cases h
  refine ⟨by simp, by simp, by simp, by simp, by simp, by simp, fun h => ?_, fun h => ?_, fun h => ?_⟩
  · rw [setReg_key (unlockable h)]
  · rw [setReg_rounds (unlockable h)]
  · rw [hb] at h
    cases h

/-- Everything a step can do to the fields of Kept. -/
inductive Move (s t : State) : Prop where
  /-- An access, or a command that is short or refused: nothing. -/
  | kept (k : Kept s t)
  /-- CFG with a legal round count (R162). -/
  | construct (hw : TakesWord .cfg s) (hb : s.busy = false) (hr : 0 < s.rounds.toInt)
      (k : Kept { s with locked := true } t)
  /-- GEN or GENINC accepted (R140, R141). -/
  | generation (op : LongOp) (hop : op = .gen ∨ op = .geninc) (hw : TakesWord op.instr s) (hb : s.busy = false)
      (hl : s.locked = true) (k : Kept (beginLong op { s with ksv := false }) t)
  /-- XOR or QR accepted (R112, R150). -/
  | operation (op : LongOp) (hop : op = .xor ∧ s.ksv = true ∧ s.len.toNat ≤ 32 ∨ op = .qr) (hw : TakesWord op.instr s)
      (hb : s.busy = false) (k : Kept (beginLong op s) t)
  /-- CLR accepted (R164). -/
  | clear (hw : TakesWord .clr s) (hb : s.busy = false)
      (k : Kept { s with ks := Vector.replicate 16 0, dout := Vector.replicate 8 0, ksv := false } t)
  /-- The completion step (R240). -/
  | complete (ht : EngineTurn s) (l : List Input) (e : t = engineStep { s with inputs := l })
  /-- Reset (R230). -/
  | reset (hr : TakesReset s) (k : Kept State.reset t)

/-- A command accepted or refused by an idle engine. -/
theorem IssueEffect.move {i : Instr} {s t : State} {rest : List Input} (hw : TakesWord i s) (hb : s.busy = false)
    (e : IssueEffect i { s with inputs := rest } t) : Move s t := by
  cases i with
  | nop => exact .kept (e ▸ .inputs s rest)
  | cfg =>
    rcases e with ⟨-, rfl⟩ | ⟨-, -, rfl⟩ | ⟨-, hr, rfl⟩
    · exact .kept (.frame s ..)
    · exact .kept (.frame s ..)
    · exact .construct hw hb hr (.inputs { s with locked := true } rest)
  | gen =>
    rcases e with ⟨-, rfl⟩ | ⟨hl, rfl⟩
    · exact .kept (.frame s ..)
    · exact .generation .gen (.inl rfl) hw hb hl (.inputs (beginLong .gen { s with ksv := false }) rest)
  | geninc =>
    rcases e with ⟨-, rfl⟩ | ⟨hl, rfl⟩
    · exact .kept (.frame s ..)
    · exact .generation .geninc (.inr rfl) hw hb hl (.inputs (beginLong .geninc { s with ksv := false }) rest)
  | xor =>
    rcases e with ⟨-, rfl⟩ | ⟨-, -, rfl⟩ | ⟨hk, hn, rfl⟩
    · exact .kept (.frame s ..)
    · exact .kept (.frame s ..)
    · exact .operation .xor (.inl ⟨rfl, hk, hn⟩) hw hb (.inputs (beginLong .xor s) rest)
  | qr => exact .operation .qr (.inr rfl) hw hb (e ▸ .inputs (beginLong .qr s) rest)
  | clr => exact .clear hw hb (e ▸ .inputs { s with ks := _, dout := _, ksv := false } rest)
  | clrerr => exact .kept (e ▸ .frame s ..)

theorem step_move {s t : State} (h : step s = .next t) : Move s t := by
  cases step_kind h with
  | completion l hi e =>
    refine .complete ?_ l e
    rcases hi with ⟨hi, -⟩ | hi
    · exact .inl hi
    · exact .inr ⟨l, hi⟩
  | reset o rest hi e =>
    obtain ⟨d, r, rfl⟩ := e
    exact .reset ⟨_, rest, hi, rfl⟩ (.frame State.reset ..)
  | quiet a rest hi e herr => exact .kept (e ▸ .frame s ..)
  | write r v a rest hi hb hl e => exact .kept (e ▸ .setReg hb hl v rest)
  | command i off n w rest hi ho hr hd hb e => exact e.move ⟨_, rest, hi, isCommandWord_of_decode ho hr hd⟩ hb

/-! ### The completion step -/

/-- A completion changes neither the construction nor the error record (R205). -/
theorem engineStep_frame (s : State) :
    engineStep s =
      { engineStep s with locked := s.locked, key := s.key, rounds := s.rounds, err := s.err } := by
  rcases engineStep_cases s with ⟨-, e⟩ | ⟨-, e⟩ | ⟨-, e⟩ | ⟨-, e⟩ | ⟨-, e⟩ <;> rw [e] <;> rfl

@[simp] theorem engineStep_locked (s : State) : (engineStep s).locked = s.locked := by
  rw [engineStep_frame]

@[simp] theorem engineStep_key (s : State) : (engineStep s).key = s.key := by
  rw [engineStep_frame]

@[simp] theorem engineStep_rounds (s : State) : (engineStep s).rounds = s.rounds := by
  rw [engineStep_frame]

@[simp] theorem engineStep_err (s : State) : (engineStep s).err = s.err := by
  rw [engineStep_frame]

end Sys2Proof.Machine
end

section
/-! PROOFS. The invariant of the engine: it holds at reset, and each move of a step keeps it (spec/10_state.md R35, R40). -/

namespace Sys2Proof.Machine

open Sys2Proof

theorem Inv.kept {s t : State} (h : Inv s) (k : Kept s t) : Inv t where
  busy_iff_pending := by rw [k.busy, k.pend]; exact h.busy_iff_pending
  locked_rounds_positive hl := by
    rw [k.locked] at hl
    rw [k.rounds hl]
    exact h.locked_rounds_positive hl
  generating := by rw [k.pend, k.locked, k.ksv]; exact h.generating
  xoring hp := by
    rw [k.pend] at hp
    have hb : s.busy = true := h.busy_iff_pending.mpr (by simp [hp])
    rw [k.ksv, k.len hb]
    exact h.xoring hp
  ksv_locked := by rw [k.ksv, k.locked]; exact h.ksv_locked
  ksv_keystream hk := by
    rw [k.ksv] at hk
    have hl := h.ksv_locked hk
    rw [k.ks, k.key hl, k.rounds hl]
    exact h.ksv_keystream hk

theorem Inv.pend_of_idle {s : State} (h : Inv s) (hb : s.busy = false) : s.pend = none := by
  by_contra hp
  rw [h.busy_iff_pending.mpr hp] at hb
  cases hb

/-- An engine that is constructed with no command pending (R162). -/
theorem Inv.construct {s : State} (h : Inv s) (hb : s.busy = false) (hr : 0 < s.rounds.toInt) :
    Inv { s with locked := true } where
  busy_iff_pending := h.busy_iff_pending
  locked_rounds_positive _ := hr
  generating hp := by simp [h.pend_of_idle hb] at hp
  xoring := h.xoring
  ksv_locked _ := rfl
  ksv_keystream := h.ksv_keystream

/-- Outputs that are destroyed with no command pending (R140, R164). -/
theorem Inv.clear {s : State} (h : Inv s) (hb : s.busy = false) (ks : Vector Word 16) (dout : Vector Word 8) :
    Inv { s with ks := ks, dout := dout, ksv := false } where
  busy_iff_pending := h.busy_iff_pending
  locked_rounds_positive := h.locked_rounds_positive
  generating hp := ⟨(h.generating hp).1, rfl⟩
  xoring hp := by simp [h.pend_of_idle hb] at hp
  ksv_locked hk := by cases hk
  ksv_keystream hk := by cases hk

/-- A long command whose issue checks hold (R140, R150). -/
theorem Inv.beginLong {s : State} (h : Inv s) {op : LongOp}
    (hg : op = .gen ∨ op = .geninc → s.locked = true ∧ s.ksv = false)
    (hx : op = .xor → s.ksv = true ∧ s.len.toNat ≤ 32) : Inv (beginLong op s) where
  busy_iff_pending := by simp
  locked_rounds_positive := h.locked_rounds_positive
  generating hp := hg (by simpa using hp)
  xoring hp := hx (by simpa using hp)
  ksv_locked := h.ksv_locked
  ksv_keystream := h.ksv_keystream

/-- The completion of XOR or QR, whichever results it writes. -/
theorem Inv.endLong {s : State} (h : Inv s) (q : Vector Word 4) (dout : Vector Word 8) :
    Inv (endLong { s with q := q, dout := dout }) where
  busy_iff_pending := by simp
  locked_rounds_positive := h.locked_rounds_positive
  generating hp := by simp at hp
  xoring hp := by simp at hp
  ksv_locked := h.ksv_locked
  ksv_keystream := h.ksv_keystream

/-- The completion of a generation by a constructed engine (R140). -/
theorem Inv.generate {s : State} (h : Inv s) (hl : s.locked = true) : Inv (generate s) where
  busy_iff_pending := by simp
  locked_rounds_positive := h.locked_rounds_positive
  generating hp := by simp at hp
  xoring hp := by simp at hp
  ksv_locked _ := hl
  ksv_keystream _ := ⟨s.pos, s.nonce, rfl⟩

theorem Kept.advancePos (s : State) : Kept s (advancePos s) :=
  ⟨rfl, rfl, rfl, rfl, rfl, rfl, fun _ => rfl, fun _ => rfl, fun _ => rfl⟩

theorem Inv.engineStep {s : State} (h : Inv s) : Inv (engineStep s) := by
  rcases engineStep_cases s with ⟨-, e⟩ | ⟨hp, e⟩ | ⟨hp, e⟩ | ⟨-, e⟩ | ⟨-, e⟩ <;> rw [e]
  · exact h
  · exact h.generate (h.generating (.inl hp)).1
  · exact (h.kept (.advancePos s)).generate (h.generating (.inr hp)).1
  · exact h.endLong s.q _
  · exact h.endLong _ s.dout

/-- Settles O48: nothing is pending, LOCKED and KSV are 0, so every clause is about a case reset excludes. -/
theorem invariantAfterReset : Obligations.InvariantAfterReset where
  busy_iff_pending := by decide
  locked_rounds_positive := by decide
  generating := by decide
  xoring := by decide
  ksv_locked := by decide
  ksv_keystream hk := by cases hk

/-- Settles O49: each thing a step can do keeps the invariant. -/
theorem everyStepKeepsTheInvariant : Obligations.EveryStepKeepsTheInvariant := by
  intro s t hs h
  cases step_move h with
  | kept k => exact hs.kept k
  | construct hw hb hr k => exact (hs.construct hb hr).kept k
  | generation op hop hw hb hl k =>
    have hx : op ≠ .xor := by rcases hop with rfl | rfl <;> decide
    exact ((hs.clear hb s.ks s.dout).beginLong (fun _ => ⟨hl, rfl⟩) fun h => absurd h hx).kept k
  | operation op hop hw hb k =>
    rcases hop with ⟨rfl, hx⟩ | rfl
    · exact (hs.beginLong (by simp) fun _ => hx).kept k
    · exact (hs.beginLong (by simp) (by simp)).kept k
  | clear hw hb k => exact (hs.clear hb _ _).kept k
  | complete ht l e => exact e ▸ (hs.kept (.inputs s l)).engineStep
  | reset hr k => exact Inv.kept invariantAfterReset k

end Sys2Proof.Machine
end

section
/-! PROOFS. Which steps change ERR, LOCKED, BUSY, KSV, KS and DOUT (spec/10_state.md R29 to R36). -/

namespace Sys2Proof.Machine

open Sys2Proof

/-- The error record after a command of an idle engine (R166, R204). -/
theorem IssueEffect.err {i : Instr} {s t : State} (e : IssueEffect i s t) :
    (i = .clrerr ∧ t.err = .none) ∨ t.err = s.err ∨ s.err = .none := by
  cases i with
  | nop => exact .inr (.inl (congrArg State.err e))
  | cfg =>
    rcases e with ⟨-, rfl⟩ | ⟨-, -, rfl⟩ | ⟨-, -, rfl⟩
    · exact .inr (setErr_err_cases .locked s)
    · exact .inr (setErr_err_cases .badRounds s)
    · exact .inr (.inl rfl)
  | gen | geninc =>
    rcases e with ⟨-, rfl⟩ | ⟨-, rfl⟩
    · exact .inr (setErr_err_cases .notConfigured s)
    · exact .inr (.inl rfl)
  | xor =>
    rcases e with ⟨-, rfl⟩ | ⟨-, -, rfl⟩ | ⟨-, -, rfl⟩
    · exact .inr (setErr_err_cases .noKeystream s)
    · exact .inr (setErr_err_cases .badLen s)
    · exact .inr (.inl rfl)
  | qr | clr =>
    obtain rfl := e
    exact .inr (.inl rfl)
  | clrerr => exact .inl ⟨rfl, congrArg State.err e⟩

/-- Settles O11: a read, a write and a completion keep ERR or record the first error, and of the commands only CLRERR
clears it. -/
theorem errChangesOnlyBySetErrClrerrAndReset : Obligations.ErrChangesOnlyBySetErrClrerrAndReset := by
  intro s t h hne
  cases step_kind h with
  | completion l hi e => exact absurd (e ▸ engineStep_err _) hne
  | reset o rest hi e =>
    obtain ⟨d, r, rfl⟩ := e
    exact .inr ⟨rfl, _, rest, hi, .inl rfl⟩
  | quiet a rest hi e herr => exact .inl (herr.resolve_left hne)
  | write r v a rest hi hb hl e => exact absurd (e ▸ setReg_err r v _) hne
  | command i off n w rest hi ho hr hd hb e =>
    rcases e.err with ⟨rfl, herr⟩ | herr | herr
    · exact .inr ⟨herr, _, rest, hi, .inr ⟨hb, isCommandWord_of_decode ho hr hd⟩⟩
    · exact absurd herr hne
    · exact .inl herr

/-- A STATUS bit that a step keeps goes neither to 1 nor to 0. -/
theorem no_flip_of_eq {a b : Bool} (h : b = a) {P Q : Prop} :
    (a = false → b = true → P) ∧ (a = true → b = false → Q) := by
  subst h
  cases b <;> simp

/-- Settles O50: of the things a step can do only CFG sets LOCKED, only reset clears it, and while it stands none writes KEY
or ROUNDS. -/
theorem constructionIsFixedUntilReset : Obligations.ConstructionIsFixedUntilReset := by
  intro s t h
  have fixed (k : t.locked = s.locked) (hk : s.locked = true → t.key = s.key) (hr : s.locked = true → t.rounds = s.rounds) :
      (s.locked = false → t.locked = true → s.busy = false ∧ 0 < s.rounds.toInt ∧ TakesWord .cfg s) ∧
      (s.locked = true → (t.locked = true ∧ t.key = s.key ∧ t.rounds = s.rounds) ∨ TakesReset s) :=
    ⟨(no_flip_of_eq k (Q := True)).1, fun hl => .inl ⟨k.trans hl, hk hl, hr hl⟩⟩
  cases step_move h with
  | kept k => exact fixed k.locked k.key k.rounds
  | construct hw hb hr k => exact ⟨fun _ _ => ⟨hb, hr, hw⟩, fun _ => .inl ⟨k.locked, k.key rfl, k.rounds rfl⟩⟩
  | generation op hop hw hb hl k => exact fixed k.locked k.key k.rounds
  | operation op hop hw hb k => exact fixed k.locked k.key k.rounds
  | clear hw hb k => exact fixed k.locked k.key k.rounds
  | complete ht l e =>
    subst e
    exact fixed (engineStep_locked _) (fun _ => engineStep_key _) fun _ => engineStep_rounds _
  | reset hr k => exact ⟨fun _ hl => absurd (k.locked.symm.trans hl) Bool.false_ne_true, fun _ => .inr hr⟩

/-- Settles O51: BUSY moves only where a long command begins or completes, and at reset. -/
theorem busySpansALongCommand : Obligations.BusySpansALongCommand := by
  intro s t h
  cases step_move h with
  | kept k => exact no_flip_of_eq k.busy
  | construct hw hb hr k => exact no_flip_of_eq k.busy
  | generation op hop hw hb hl k =>
    obtain ⟨j, rest, hi, hj⟩ := hw
    refine ⟨fun _ _ => ⟨j, rest, hi, ?_⟩, fun hb1 => absurd (hb.symm.trans hb1) Bool.false_ne_true⟩
    rcases hop with rfl | rfl
    · exact .inl ⟨hj, k.pend⟩
    · exact .inr (.inl ⟨hj, k.pend⟩)
  | operation op hop hw hb k =>
    obtain ⟨j, rest, hi, hj⟩ := hw
    refine ⟨fun _ _ => ⟨j, rest, hi, ?_⟩, fun hb1 => absurd (hb.symm.trans hb1) Bool.false_ne_true⟩
    rcases hop with ⟨rfl, -⟩ | rfl
    · exact .inr (.inr (.inl ⟨hj, k.pend⟩))
    · exact .inr (.inr (.inr ⟨hj, k.pend⟩))
  | clear hw hb k => exact no_flip_of_eq k.busy
  | complete ht l e =>
    subst e
    by_cases hp : s.pend = none
    · exact no_flip_of_eq (by simp only [engineStep, hp])
    · have hb : (engineStep { s with inputs := l }).busy = false := engineStep_busy hp
      exact ⟨fun _ hb1 => absurd (hb.symm.trans hb1) Bool.false_ne_true, fun _ _ => .inl ⟨hp, ht⟩⟩
  | reset hr k => exact ⟨fun _ hb => absurd (k.busy.symm.trans hb) Bool.false_ne_true, fun _ _ => .inr hr⟩

/-- Only a generation writes KS, and it sets KSV (R29, R35). -/
theorem engineStep_keystream_cases (s : State) :
    ((s.pend = some .gen ∨ s.pend = some .geninc) ∧ (engineStep s).ksv = true) ∨
    ((engineStep s).ks = s.ks ∧ (engineStep s).ksv = s.ksv) := by
  rcases engineStep_cases s with ⟨-, e⟩ | ⟨hp, e⟩ | ⟨hp, e⟩ | ⟨-, e⟩ | ⟨-, e⟩ <;> rw [e]
  · exact .inr ⟨rfl, rfl⟩
  · exact .inl ⟨.inl hp, rfl⟩
  · exact .inl ⟨.inr hp, rfl⟩
  · exact .inr ⟨rfl, rfl⟩
  · exact .inr ⟨rfl, rfl⟩

/-- Only XOR writes DOUT (R30). -/
theorem engineStep_dout_cases (s : State) : s.pend = some .xor ∨ (engineStep s).dout = s.dout := by
  rcases engineStep_cases s with ⟨-, e⟩ | ⟨-, e⟩ | ⟨-, e⟩ | ⟨hp, -⟩ | ⟨-, e⟩
  · exact .inr (by rw [e])
  · exact .inr (by rw [e]; rfl)
  · exact .inr (by rw [e]; rfl)
  · exact .inl hp
  · exact .inr (by rw [e]; rfl)

/-- Settles O52: KSV moves only where a generation begins or completes, and at CLR and reset. -/
theorem keystreamValidChanges : Obligations.KeystreamValidChanges := by
  intro s t h
  cases step_move h with
  | kept k => exact no_flip_of_eq k.ksv
  | construct hw hb hr k => exact no_flip_of_eq k.ksv
  | generation op hop hw hb hl k =>
    obtain ⟨j, rest, hi, hj⟩ := hw
    refine ⟨fun _ hk => absurd (k.ksv.symm.trans hk) Bool.false_ne_true,
      fun _ _ => ⟨j, rest, hi, .inr ⟨hb, .inr ⟨hl, ?_⟩⟩⟩⟩
    rcases hop with rfl | rfl
    · exact .inl hj
    · exact .inr hj
  | operation op hop hw hb k => exact no_flip_of_eq k.ksv
  | clear hw hb k =>
    obtain ⟨j, rest, hi, hj⟩ := hw
    exact ⟨fun _ hk => absurd (k.ksv.symm.trans hk) Bool.false_ne_true, fun _ _ => ⟨j, rest, hi, .inr ⟨hb, .inl hj⟩⟩⟩
  | complete ht l e =>
    subst e
    rcases engineStep_keystream_cases { s with inputs := l } with ⟨hp, hk⟩ | ⟨-, hk⟩
    · exact ⟨fun _ _ => ⟨hp, ht⟩, fun _ hk0 => absurd (hk0.symm.trans hk) Bool.false_ne_true⟩
    · exact no_flip_of_eq hk
  | reset hr k =>
    obtain ⟨j, rest, hi, hj⟩ := hr
    exact ⟨fun _ hk => absurd (k.ksv.symm.trans hk) Bool.false_ne_true, fun _ _ => ⟨j, rest, hi, .inl hj⟩⟩

/-- Settles O53: KS and DOUT move only at CLR and reset, and where a generation or XOR completes. -/
theorem resultsChangeOnlyByTheirCommands : Obligations.ResultsChangeOnlyByTheirCommands := by
  intro s t h hne
  have moved {P : Prop} (hk : t.ks = s.ks) (hd : t.dout = s.dout) : P := hne.elim (absurd hk) (absurd hd)
  cases step_move h with
  | kept k => exact moved k.ks k.dout
  | construct hw hb hr k => exact moved k.ks k.dout
  | generation op hop hw hb hl k => exact moved k.ks k.dout
  | operation op hop hw hb k => exact moved k.ks k.dout
  | clear hw hb k =>
    obtain ⟨j, rest, hi, hj⟩ := hw
    exact .inl ⟨j, rest, hi, .inr ⟨hb, hj⟩⟩
  | complete ht l e =>
    subst e
    refine .inr ⟨ht, fun hk => ?_, (engineStep_dout_cases { s with inputs := l }).resolve_right⟩
    rcases engineStep_keystream_cases { s with inputs := l } with ⟨hp, -⟩ | ⟨hk', -⟩
    · exact hp
    · exact absurd hk' hk
  | reset hr k =>
    obtain ⟨j, rest, hi, hj⟩ := hr
    exact .inl ⟨j, rest, hi, .inl hj⟩

end Sys2Proof.Machine
end

section
/-! PROOFS. What no host can see: KEY by a read (R23), and the hidden matrix S by any run (R41). -/

namespace Sys2Proof.Machine

open Sys2Proof

theorem readReg_key (r : Reg) (s : State) : (readReg r s).key = s.key := by
  rcases readReg_cases r s with e | ⟨-, e⟩ <;> rw [e] <;> rfl

theorem readReg_mat (r : Reg) (s : State) : (readReg r s).mat = s.mat := by
  rcases readReg_cases r s with e | ⟨-, e⟩ <;> rw [e] <;> rfl

/-- A read answers and counts the same whatever KEY and S hold (R23, R41). -/
theorem readReg_key_mat (r : Reg) (s : State) (k : Vector Word 8) (m : Matrix) :
    readReg r { s with key := k, mat := m } = { readReg r s with key := k, mat := m } := by
  have hv : regValue r { s with key := k, mat := m } = regValue r s := by cases r <;> rfl
  have hf : isInFlight r { s with key := k, mat := m } = isInFlight r s := rfl
  unfold readReg
  rw [hv, hf]
  split <;> rfl

/-- Settles O43: whether a read is refused depends on the access alone, and what it answers not on KEY. -/
theorem noReadRevealsTheKey : Obligations.NoReadRevealsTheKey := by
  intro s k off n
  cases hr : accessRefusal off n with
  | some r =>
    simp only [hostAccess, hr]
    exact ⟨nofun, fun _ h => h⟩
  | none =>
    simp only [hostAccess, hr, Host.Outcome.next.injEq]
    refine ⟨fun t h => ?_, nofun⟩
    rw [← h, readReg_key_mat _ s k s.mat, readReg_mat]

/-- The same answer with m in S. -/
def withMat (m : Matrix) (r : Result) : Result := andThen r fun t => .next { t with mat := m }

theorem issueChecked_mat (m : Matrix) {body : State → Result} (s : State)
    (h : body { s with mat := m } = withMat m (body s)) :
    issueChecked { s with mat := m } body = withMat m (issueChecked s body) := by
  unfold issueChecked
  split
  · rfl
  · exact h

/-- No command looks at S or writes it at issue. -/
theorem exec_mat (m : Matrix) (i : Instr) (s : State) : exec i { s with mat := m } = withMat m (exec i s) := by
  cases i with
  | nop | qr | clr | clrerr =>
    simp only [exec, execNop, execQr, execClr, execClrerr]
    exact issueChecked_mat m s rfl
  | gen | geninc =>
    simp only [exec, execGen, execGeninc, issueGenerate]
    refine issueChecked_mat m s ?_
    dsimp only
    split <;> rfl
  | cfg | xor =>
    simp only [exec, execCfg, execXor]
    refine issueChecked_mat m s ?_
    dsimp only
    split
    · rfl
    · split <;> rfl

theorem setReg_mat_comm (m : Matrix) (r : Reg) (v : Word) (s : State) :
    setReg r v { s with mat := m } = { setReg r v s with mat := m } := by
  cases r <;> rfl

theorem writeLockable_mat (m : Matrix) (r : Reg) (v : Word) (s : State) :
    writeLockable r v { s with mat := m } = withMat m (writeLockable r v s) := by
  unfold writeLockable
  rw [setReg_mat_comm]
  dsimp only
  split
  · rfl
  · split <;> rfl

theorem writeOperand_mat (m : Matrix) (r : Reg) (v : Word) (s : State) :
    writeOperand r v { s with mat := m } = withMat m (writeOperand r v s) := by
  unfold writeOperand
  rw [setReg_mat_comm]
  dsimp only
  split <;> rfl

theorem issue_mat (m : Matrix) (w : Word) (s : State) : issue w { s with mat := m } = withMat m (issue w s) := by
  unfold issue
  split
  · exact exec_mat m _ s
  · exact issueChecked_mat m s rfl

theorem writeReg_mat (m : Matrix) (r : Reg) (v : Word) (s : State) :
    writeReg r v { s with mat := m } = withMat m (writeReg r v s) := by
  cases r with
  | cmd => exact issue_mat m v s
  | rounds | key => exact writeLockable_mat m _ v s
  | posLo | posHi | nonceLo | nonceHi | len | q | din => exact writeOperand_mat m _ v s
  | status | dout | ks | reserved => rfl

theorem hostAccess_mat (m : Matrix) (a : Access) (s : State) :
    hostAccess a { s with mat := m } = withMat m (hostAccess a s) := by
  cases a with
  | read off n =>
    simp only [hostAccess]
    split
    · rfl
    · refine congrArg _ ((readReg_key_mat (regAt off.toNat) s s.key m).trans ?_)
      rw [← readReg_key (regAt off.toNat) s]
  | write off n v =>
    simp only [hostAccess]
    split
    · rfl
    · exact writeReg_mat m _ v s

/-- A generation writes S without reading it; no other completion touches it (R41). -/
theorem engineStep_mat (m : Matrix) (s : State) : ∃ m', engineStep { s with mat := m } = { engineStep s with mat := m' } := by
  rcases engineStep_cases s with ⟨hp, e⟩ | ⟨hp, e⟩ | ⟨hp, e⟩ | ⟨hp, e⟩ | ⟨hp, e⟩ <;> rw [e] <;>
    simp only [engineStep, hp]
  · exact ⟨m, rfl⟩
  · exact ⟨(generate s).mat, rfl⟩
  · exact ⟨(generate (advancePos s)).mat, rfl⟩
  · exact ⟨m, rfl⟩
  · exact ⟨m, rfl⟩

theorem takeInput_mat (m : Matrix) (i : Input) (s : State) :
    ∃ m', takeInput i { s with mat := m } = withMat m' (takeInput i s) := by
  cases i with
  | host a => exact ⟨m, hostAccess_mat m a s⟩
  | engine =>
    obtain ⟨m', e⟩ := engineStep_mat m s
    exact ⟨m', congrArg _ e⟩
  | reset o => exact ⟨(resetStep o s).mat, rfl⟩

theorem step_mat (m : Matrix) (s : State) : ∃ m', step { s with mat := m } = withMat m' (step s) := by
  unfold step
  dsimp only
  split
  · obtain ⟨m', e⟩ := engineStep_mat m s
    exact ⟨m', congrArg _ e⟩
  · rename_i i rest hi
    exact takeInput_mat m i { s with inputs := rest }

/-- A run from a state with another S answers what the first run answers, up to S. -/
theorem run_mat (k : Nat) (m : Matrix) (s : State) :
    ∃ m', Sys2Proof.core.run k { s with mat := m } = withMat m' (Sys2Proof.core.run k s) := by
  induction k generalizing s m with
  | zero => exact ⟨m, rfl⟩
  | succ k ih =>
    obtain ⟨m', e⟩ := step_mat m s
    cases h : step s with
    | next t =>
      rw [h] at e
      rw [run_succ_next e, run_succ_next h]
      exact ih m' t
    | fault r => cases r
    | refused r =>
      rw [h] at e
      rw [run_succ_refused e, run_succ_refused h]
      exact ⟨m, rfl⟩

/-- Settles O54: by induction on the number of steps, each of which keeps two states equal up to S. -/
theorem hiddenMatrixIsUnobservable : Obligations.HiddenMatrixIsUnobservable := by
  intro k s m
  obtain ⟨m', e⟩ := run_mat k m s
  exact ⟨fun t h => ⟨m', by rw [e, h]; rfl⟩, fun r h => by rw [e, h]; rfl⟩

end Sys2Proof.Machine
end

section
/-! PROOFS. The reset values (R44) and the fields of the STATUS word (R32, R200). -/

namespace Sys2Proof.Machine

open Sys2Proof

/-- Settles O1: the fields of State.reset, each array of registers filled with zero. -/
theorem resetValues : Obligations.ResetValues :=
  have zero {n : Nat} (i : Fin n) : (Vector.replicate n (0 : Word))[i] = 0 := Vector.getElem_replicate i.isLt
  ⟨rfl, zero, rfl, rfl, rfl, rfl, rfl, zero, zero, zero, zero, rfl, rfl, rfl, rfl, rfl, rfl⟩

@[simp] theorem statusWord_locked (s : State) : (statusWord s).getLsbD 1 = s.locked := by
  simp [statusWord]

@[simp] theorem statusWord_ksv (s : State) : (statusWord s).getLsbD 2 = s.ksv := by
  simp [statusWord]

/-- Above the three flags STATUS holds the code of ERR at bit 8 and nothing else. -/
theorem statusWord_above_flags (s : State) {i : Nat} (h2 : 2 < i) (h : i < 32) :
    (statusWord s).getLsbD i = (!decide (i < 8) && s.err.code.getLsbD (i - 8)) := by
  simp [statusWord, h, show i - 1 ≠ 0 by omega, show i - 2 ≠ 0 by omega, show i ≠ 0 by omega]

theorem statusWord_reserved (s : State) {i : Nat} (h2 : 2 < i) (h : i < 8 ∨ 11 < i) (h32 : i < 32) :
    (statusWord s).getLsbD i = false := by
  rw [statusWord_above_flags s h2 h32]
  rcases h with h | h
  · simp [h]
  · simp [BitVec.getLsbD_of_ge s.err.code (i - 8) (by omega)]

/-- Settles O38: each bit of the word is a bit of one of the four fields, shifted to its place. -/
theorem statusWordFields : Obligations.StatusWordFields := by
  intro s
  have code : (statusWord s).extractLsb' 8 4 = s.err.code := by
    ext i hi
    simp [statusWord_above_flags s (show 2 < 8 + i by omega) (by omega), hi]
  refine ⟨statusWord_busy s, statusWord_locked s, statusWord_ksv s, ?_, ?_, ?_⟩
  · ext i hi
    simp [regValue, statusWord_reserved s (show 2 < 3 + i by omega) (.inl (by omega)) (by omega)]
  · rw [regValue, code]
    cases s.err <;> rfl
  · ext i hi
    simp [regValue, statusWord_reserved s (show 2 < 12 + i by omega) (.inr (by omega)) (by omega)]

end Sys2Proof.Machine
end

section
/-! PROOFS. The serializer (R63) and the register map (R61): each aligned offset of the window against the register there. -/

namespace Sys2Proof.Machine

open Sys2Proof

/-- Settles O29: the serializer is the byte buffer of the matrix, read off byte by byte. -/
theorem serializerByteOrder : Obligations.SerializerByteOrder := by
  intro m i k
  rw [extract_eq_bufByte, ser, Vector.getElem_ofFn]

/-- The registers whose writes are ignored (R69). -/
def Reg.readOnly : Reg → Bool
  | .status => true
  | .dout _ => true
  | .ks _ => true
  | .reserved => true
  | _ => false

theorem regOfIndex_eq_reserved : ∀ k < 64,
    (regOfIndex k = .reserved ↔ k = 3 ∨ (17 ≤ k ∧ k ≤ 19) ∨ (40 ≤ k ∧ k ≤ 47)) := by decide

theorem regOfIndex_offset : ∀ k < 64, regOfIndex k ≠ .reserved → (regOfIndex k).offset = 4 * k := by decide

theorem regOfIndex_readOnly : ∀ k < 64,
    ((regOfIndex k).readOnly = true ↔ k = 1 ∨ k = 3 ∨ (17 ≤ k ∧ k ≤ 19) ∨ 32 ≤ k) := by decide

theorem regAt_eq_reserved {off : Nat} (h4 : off % 4 = 0) (h : off ≤ 0xFC) :
    regAt off = .reserved ↔ off = 0x00C ∨ (0x044 ≤ off ∧ off ≤ 0x04C) ∨ (0x0A0 ≤ off ∧ off ≤ 0x0BC) := by
  rw [regAt, regOfIndex_eq_reserved (off / 4) (by omega)]
  omega

/-- No two offsets hold one register: the converse of regAt_offset. -/
theorem offset_regAt {off : Nat} (h4 : off % 4 = 0) (h : off ≤ 0xFC) (hr : regAt off ≠ .reserved) :
    (regAt off).offset = off := by
  rw [regAt, regOfIndex_offset (off / 4) (by omega) hr]
  omega

theorem regAt_readOnly {off : Nat} (h4 : off % 4 = 0) (h : off ≤ 0xFC) :
    (regAt off).readOnly = true ↔ off = 0x004 ∨ off = 0x00C ∨ (0x044 ≤ off ∧ off ≤ 0x04C) ∨ 0x080 ≤ off := by
  rw [regAt, regOfIndex_readOnly (off / 4) (by omega)]
  omega

theorem regAt_ne_cmd {off : Nat} (h0 : 0x004 ≤ off) (h : off ≤ 0xFC) : regAt off ≠ .cmd := by
  intro hr
  have := regOfIndex_eq_cmd (off / 4) (by omega) hr
  omega

/-- Settles O34: every offset of R61 is its register's, and back from the offset by its index in the window. -/
theorem registerMapOffsets : Obligations.RegisterMapOffsets :=
  ⟨⟨rfl, rfl, rfl, fun i => regAt_offset (.key i), rfl, rfl, rfl, rfl, rfl, fun i => regAt_offset (.q i),
      fun i => regAt_offset (.din i), fun i => regAt_offset (.dout i), fun i => regAt_offset (.ks i)⟩,
    fun r => ⟨regAt_offset r, offset_in_window r⟩,
    fun _ h4 h => ⟨regAt_eq_reserved h4 h, offset_regAt h4 h⟩⟩

end Sys2Proof.Machine
end

section
/-! PROOFS. Host accesses (R62) and what a read answers (R65). -/

namespace Sys2Proof.Machine

open Sys2Proof

/-- The interface of R62: 32 bits wide, aligned, within the window. -/
theorem accessOk_iff {off : Int} {n : Nat} :
    accessOk off n = true ↔ n = 4 ∧ off % 4 = 0 ∧ 0 ≤ off ∧ off ≤ 0x0FC := by
  simp only [accessOk, accessWidthOk, offsetInWindow, offsetAligned, Bool.and_eq_true, decide_eq_true_eq, beq_iff_eq]
  omega

theorem step_host {s : State} {a : Access} {rest : List Input} (h : s.inputs = .host a :: rest) :
    step s = hostAccess a { s with inputs := rest } := by
  simp only [step, h, takeInput]

theorem hostAccess_read {off : Int} {n : Nat} (h : accessOk off n = true) (s : State) :
    hostAccess (.read off n) s = .next (readReg (regAt off.toNat) s) := by
  rw [hostAccess, accessRefusal_eq_none.mpr h]

theorem hostAccess_write {off : Int} {n : Nat} (h : accessOk off n = true) (v : Word) (s : State) :
    hostAccess (.write off n v) s = writeReg (regAt off.toNat) v s := by
  rw [hostAccess, accessRefusal_eq_none.mpr h]

/-- Settles O35: the three checks of R62 are the interface, outside it an access is refused and inside it has its step. -/
theorem onlyAlignedWordAccessesHaveAStep : Obligations.OnlyAlignedWordAccessesHaveAStep := by
  intro s rest off n v
  refine ⟨fun a ha hi => ?_, fun hn h4 h0 h1 => ?_⟩
  · have ok : a.ok = accessOk off n := by rcases ha with rfl | rfl <;> rfl
    rw [step_host hi]
    refine ⟨rfl, fun bad => hostAccess_refused ?_ _, fun good => hostAccess_total (ok.trans (accessOk_iff.mpr good)) _⟩
    rw [ok, ← Bool.not_eq_true, accessOk_iff]
    omega
  · have ok := accessOk_iff.mpr ⟨hn, h4, h0, h1⟩
    exact ⟨hostAccess_read ok _, hostAccess_write ok v _⟩

/-- The destinations of R65, command by command. -/
theorem isDestination_iff (op : LongOp) (r : Reg) : isDestination op r = true ↔
    (op = .gen ∧ ∃ i, r = .ks i) ∨ (op = .geninc ∧ ((∃ i, r = .ks i) ∨ r = .posLo ∨ r = .posHi)) ∨
      (op = .xor ∧ ∃ i, r = .dout i) ∨ (op = .qr ∧ ∃ i, r = .q i) := by
  cases op <;> cases r <;> simp [isDestination]

/-- While a command is pending its destinations, and they alone, read as a draw (R65). -/
theorem readReg_pending {s : State} {op : LongOp} (hb : s.busy = true) (hp : s.pend = some op) (r : Reg) :
    readReg r s = if isDestination op r then answerDraw s else answer (regValue r s) s := by
  simp only [readReg, isInFlight, hb, hp, Bool.true_and]

theorem regValue_inputs (r : Reg) (s : State) (l : List Input) : regValue r { s with inputs := l } = regValue r s := by
  cases r <;> rfl

/-- Settles O37: a read step is readReg of the register at the offset, which draws only for a destination in flight. -/
theorem readAnswersValueOrDraw : Obligations.ReadAnswersValueOrDraw := by
  refine ⟨fun s off r rest h4 h hr hi => ?_, fun s => ?_⟩
  · have read : step s = .next (readReg r { s with inputs := rest }) := by
      rw [step_host hi, regRead, hostAccess_read (accessOk_iff.mpr (by omega)), Int.toNat_natCast, hr]
    rw [read, ← regValue_inputs r s rest]
    refine ⟨fun hb => congrArg _ (readReg_idle r hb), fun op hb hp => ?_⟩
    rw [readReg_pending (s := { s with inputs := rest }) hb hp, ← isDestination_iff]
    exact ⟨fun hd => by rw [if_pos hd, answerDraw], fun hd => by rw [if_neg hd, answer]⟩
  · exact ⟨rfl, fun _ => rfl, rfl, rfl, rfl, rfl, rfl, rfl, rfl, fun _ => rfl, fun _ => rfl, fun _ => rfl, fun _ => rfl⟩

end Sys2Proof.Machine
end

section
/-! PROOFS. Host writes (R66 to R70): one rule per outcome of a write, and the step at each offset of the window (R61, R67). -/

namespace Sys2Proof.Machine

open Sys2Proof

/-! ### One rule per outcome -/

/-- A read-only register ignores the write in every state (R69). -/
theorem writeReg_readOnly {r : Reg} (hr : r.readOnly = true) (v : Word) (s : State) : writeReg r v s = .next s := by
  cases r with
  | status | dout | ks | reserved => rfl
  | _ => cases hr

/-- The BUSY check, which a write to CMD passes as well (R66, R68, R202). -/
theorem writeReg_busy {r : Reg} {s : State} (hr : r.readOnly = false) (hb : s.busy = true) (v : Word) :
    writeReg r v s = .next (setErr .busy s) := by
  cases r with
  | cmd =>
    rcases issue_cases v s with ⟨-, e⟩ | ⟨hi, -⟩ | ⟨hi, -⟩
    · exact e
    all_goals rw [hb] at hi; cases hi
  | status | dout | ks | reserved => cases hr
  | _ => exact if_pos hb

/-- The LOCKED check (R66). -/
theorem writeReg_locked {r : Reg} {s : State} (hr : r.lockable = true) (hb : s.busy = false) (hl : s.locked = true)
    (v : Word) : writeReg r v s = .next (setErr .locked s) := by
  cases r with
  | rounds | key => simp [writeReg, writeLockable, raiseError, hb, hl]
  | _ => cases hr

/-- A write to ROUNDS or KEY[i] that passes both checks lands (R66). -/
theorem writeReg_unlocked {r : Reg} {s : State} (hr : r.lockable = true) (hb : s.busy = false) (hl : s.locked = false)
    (v : Word) : writeReg r v s = .next (setReg r v s) := by
  cases r with
  | rounds | key => simp [writeReg, writeLockable, hb, hl]
  | _ => cases hr

theorem Reg.readOnly_of_lockable {r : Reg} (h : r.lockable = true) : r.readOnly = false := by
  cases r with
  | rounds | key => rfl
  | _ => cases h

theorem writeReg_inputs {r : Reg} {v : Word} {s t : State} (hr : r ≠ .cmd) (h : writeReg r v s = .next t) :
    t.inputs = s.inputs := by
  rcases writeReg_cases hr v s with e | ⟨-, e⟩ | ⟨-, -, -, e⟩ | ⟨-, -, e⟩ <;> rw [e] at h <;> injection h with h <;>
    simp [← h]

/-- A write meets the same checks again, and the error it records or the value it stores is there already (R70). -/
theorem writeReg_idempotent {r : Reg} {v : Word} {s t : State} (hr : r ≠ .cmd) (h : writeReg r v s = .next t) :
    writeReg r v t = .next t := by
  cases ho : r.readOnly with
  | true => exact writeReg_readOnly ho v t
  | false =>
    cases hb : s.busy with
    | true =>
      obtain rfl := Host.Outcome.next.inj (h.symm.trans (writeReg_busy ho hb v))
      exact (writeReg_busy ho (by exact hb) v).trans (congrArg _ (setErr_setErr _ _ _ nofun))
    | false =>
      cases hk : r.lockable with
      | false =>
        obtain rfl := Host.Outcome.next.inj (h.symm.trans (writeReg_operand hb hr hk v))
        exact (writeReg_operand (by simp [hb]) hr hk v).trans (congrArg _ (setReg_setReg ..))
      | true =>
        cases hl : s.locked with
        | true =>
          obtain rfl := Host.Outcome.next.inj (h.symm.trans (writeReg_locked hk hb hl v))
          exact (writeReg_locked hk (by exact hb) (by exact hl) v).trans (congrArg _ (setErr_setErr _ _ _ nofun))
        | false =>
          obtain rfl := Host.Outcome.next.inj (h.symm.trans (writeReg_unlocked hk hb hl v))
          exact (writeReg_unlocked hk (by simp [hb]) (by simp [hl]) v).trans (congrArg _ (setReg_setReg ..))

/-- The step of a write at a register's offset is the write of that register. -/
theorem step_regWrite_offset (s : State) (r : Reg) (v : Word) (rest : List Input) :
    step { s with inputs := .host (regWrite r.offset v) :: rest } = writeReg r v { s with inputs := rest } := by
  rw [step_regWrite s (offset_in_window r).1 (offset_in_window r).2, regAt_offset]

/-! ### Command words written to CMD -/

theorem decode_encode (i : Instr) : decode (encode i) = .ok i := by
  cases i <;> rfl

theorem tableWord_toNat (w : Word) : tableWord 32 w.toNat = w := by
  rw [tableWord, Nat.mod_eq_of_lt w.isLt, BitVec.ofNat_toNat, BitVec.setWidth_eq]

theorem issue_of_decode {w : Word} {i : Instr} (h : decode w = .ok i) (s : State) : issue w s = exec i s := by
  rw [issue, h]

/-- The step of a command's word written to CMD (R67). -/
theorem step_command {w : Word} {i : Instr} (h : decode w = .ok i) (s : State) (rest : List Input) :
    step { s with inputs := .host (regWrite 0x000 w) :: rest } = exec i { s with inputs := rest } :=
  (step_regWrite_offset s .cmd w rest).trans (issue_of_decode h _)

/-- Settles O8: offset 0x000 is CMD, a write to it issues its word, and a command's table word is the one it decodes from. -/
theorem stepRunsTheDecodedCommand : Obligations.StepRunsTheDecodedCommand := by
  refine ⟨fun s w rest i h hi => ?_, fun s i => ?_⟩
  · rw [← step_command h s rest, ← hi]
  · rw [State.withFetchWord, tableWord_toNat]
    exact step_command (decode_encode i) s s.inputs

/-! ### The registers other than CMD -/

/-- Settles O42: as a write, and as a step because a write leaves the inputs as they are. -/
theorem registerWritesAreIdempotent : Obligations.RegisterWritesAreIdempotent := by
  refine ⟨fun s t r v hr h => writeReg_idempotent hr h, fun s t off v rest h4 h0 h1 h => ?_⟩
  rw [step_regWrite s h4 h1] at h
  have hr : regAt off ≠ .cmd := regAt_ne_cmd h0 h1
  have hi : t.inputs = rest := writeReg_inputs hr h
  rw [step_regWrite t h4 h1, ← hi]
  exact writeReg_idempotent hr h

/-- Settles O39: the checks of R66 in their order, at the offset of either register. -/
theorem lockableRegisterWrites : Obligations.LockableRegisterWrites := by
  intro s v i rest
  have lockableAt {off : Nat} (h : off = 0x008 ∨ off = 0x010 + 4 * i.val) :
      ∃ r : Reg, r.lockable = true ∧ off = r.offset := by
    rcases h with rfl | rfl
    · exact ⟨.rounds, rfl, rfl⟩
    · exact ⟨.key i, rfl, rfl⟩
  refine ⟨fun hb => ⟨writeReg_busy rfl hb v, writeReg_busy rfl hb v⟩,
    fun hb hl => ⟨writeReg_locked rfl hb hl v, writeReg_locked rfl hb hl v⟩,
    fun hb hl => ⟨writeReg_unlocked rfl hb hl v, writeReg_unlocked rfl hb hl v⟩,
    fun off ho hb => ?_, fun off ho hb hl => ?_, fun hb hl => ⟨?_, ?_⟩⟩
  · obtain ⟨r, hr, rfl⟩ := lockableAt ho
    exact (step_regWrite_offset s r v rest).trans (writeReg_busy (Reg.readOnly_of_lockable hr) (by exact hb) v)
  · obtain ⟨r, hr, rfl⟩ := lockableAt ho
    exact (step_regWrite_offset s r v rest).trans (writeReg_locked hr (by exact hb) (by exact hl) v)
  · exact (step_regWrite_offset s .rounds v rest).trans (writeReg_unlocked rfl (by exact hb) (by exact hl) v)
  · exact (step_regWrite_offset s (.key i) v rest).trans (writeReg_unlocked rfl (by exact hb) (by exact hl) v)

/-- Settles O40: an operand register has the BUSY check alone (R68), and so has every register between the offsets named. -/
theorem operandRegisterWrites : Obligations.OperandRegisterWrites := by
  intro s v rest
  refine ⟨fun hb => ?_, fun hb r hr => writeReg_busy ?_ hb v, fun hb => ?_, fun hb off h4 ho => ?_⟩
  · have lands (r : Reg) (hr : r ≠ .cmd) (hk : r.lockable = false) := writeReg_operand hb hr hk v
    exact ⟨lands .posLo nofun rfl, lands .posHi nofun rfl, lands .nonceLo nofun rfl, lands .nonceHi nofun rfl,
      lands .len nofun rfl, fun i => lands (.q i) nofun rfl, fun i => lands (.din i) nofun rfl⟩
  · rcases hr with rfl | rfl | rfl | rfl | rfl | ⟨i, rfl⟩ | ⟨i, rfl⟩ <;> rfl
  · have lands (r : Reg) (hr : r ≠ .cmd) (hk : r.lockable = false) :=
      (step_regWrite_offset s r v rest).trans (writeReg_operand (by exact hb) hr hk v)
    exact ⟨lands .posLo nofun rfl, lands .posHi nofun rfl, lands .nonceLo nofun rfl, lands .nonceHi nofun rfl,
      lands .len nofun rfl, fun i => lands (.q i) nofun rfl, fun i => lands (.din i) nofun rfl⟩
  · rw [step_regWrite s h4 (by omega)]
    refine writeReg_busy ?_ (by exact hb) v
    rw [← Bool.not_eq_true, regAt_readOnly h4 (by omega)]
    omega

/-- Settles O41: such a write has no check and no effect, and these are the offsets of the read-only registers (R61). -/
theorem readOnlyWritesAreIgnored : Obligations.ReadOnlyWritesAreIgnored := by
  refine fun s v => ⟨fun r hr => writeReg_readOnly ?_ v s, fun off rest h4 ho => ?_⟩
  · rcases hr with rfl | ⟨i, rfl⟩ | ⟨i, rfl⟩ | rfl <;> rfl
  · have h : off ≤ 0xFC := by omega
    rw [step_regWrite s h4 h, writeReg_readOnly ((regAt_readOnly h4 h).mpr (by omega))]

end Sys2Proof.Machine
end

section
/-! PROOFS. The encoding of commands (R90 to R95): decode as a function of the fields, the round trip with encode, and what
an illegal word does. -/

namespace Sys2Proof.Machine

open Sys2Proof

/-! ### Decode by the fields RSVD and OP -/

theorem decode_of_rsvd_eq_zero {w : Word} (hz : w.extractLsb' 8 24 = 0) : decode w = decodeOp (w.extractLsb' 0 8) :=
  if_pos hz

theorem decode_of_rsvd_ne_zero {w : Word} (hz : w.extractLsb' 8 24 ≠ 0) : decode w = .error .reservedBits :=
  if_neg hz

theorem decodeOp_opcode (i : Instr) : decodeOp i.opcode = .ok i := by
  cases i <;> rfl

theorem opcode_lt (i : Instr) : i.opcode.toNat < 0x08 := by
  cases i <;> decide

/-- The reserved values of OP (R94) are the ones beyond the table. -/
theorem decodeOp_error_iff {op : BitVec 8} : (∃ e, decodeOp op = .error e) ↔ 0x08 ≤ op.toNat := by
  constructor
  · rintro ⟨e, he⟩
    by_contra assigned
    unfold decodeOp at he
    interval_cases op.toNat <;> cases he
  · intro h
    cases hd : decodeOp op with
    | error e => exact ⟨e, rfl⟩
    | ok i =>
      have := opcode_lt i
      rw [← eq_opcode_of_decodeOp hd] at this
      omega

theorem decode_of_fields {w : Word} {i : Instr} (hz : w.extractLsb' 8 24 = 0) (ho : w.extractLsb' 0 8 = i.opcode) :
    decode w = .ok i := by
  rw [decode_of_rsvd_eq_zero hz, ho, decodeOp_opcode]

/-- The illegal words by their fields (R94). -/
theorem decode_error_iff {w : Word} :
    (∃ e, decode w = .error e) ↔ 0x08 ≤ (w.extractLsb' 0 8).toNat ∨ w.extractLsb' 8 24 ≠ 0 := by
  by_cases hz : w.extractLsb' 8 24 = 0
  · rw [decode_of_rsvd_eq_zero hz, decodeOp_error_iff, or_iff_left (not_not_intro hz)]
  · exact iff_of_true ⟨_, decode_of_rsvd_ne_zero hz⟩ (.inr hz)

/-- Settles O4: an OP of the table is its command's opcode, and the other clauses are the two kinds of illegal word. -/
theorem decodeByFields : Obligations.DecodeByFields := fun _ =>
  ⟨fun hz => decode_error_iff.mpr (.inr hz), fun hz =>
    have named (i : Instr) := decode_of_fields (i := i) hz
    ⟨named .nop, named .cfg, named .gen, named .geninc, named .xor, named .qr, named .clr, named .clrerr,
      fun ho => decode_error_iff.mpr (.inl ho)⟩⟩

/-! ### The round trip -/

/-- Settles O5: the fields of a word determine it, so a word that decodes to i is encode i; and encode i decodes to i. -/
theorem eachCommandHasExactlyOneWord : Obligations.EachCommandHasExactlyOneWord := by
  refine fun w i => ⟨eq_encode_of_decode, ?_⟩
  rintro rfl
  exact decode_encode i

/-- Settles O7: each word of the table is its command's encoding, and the other three are illegal by their fields. -/
theorem tableWordsDecode : Obligations.TableWordsDecode := by
  have reads (i : Instr) : decodeTableWord 32 (encode i).toNat = some i := by
    rw [decodeTableWord, tableWord_toNat, decode_encode]
  exact ⟨reads .nop, reads .cfg, reads .gen, reads .geninc, reads .xor, reads .qr, reads .clr, reads .clrerr,
    rfl, rfl, rfl⟩

/-! ### Illegal words -/

theorem decode_error_iff_ne_encode {w : Word} : (∃ e, decode w = .error e) ↔ ∀ i : Instr, w ≠ encode i := by
  simp only [ne_eq, ← eachCommandHasExactlyOneWord w]
  cases decode w with
  | ok i => simp
  | error e => simp

/-- An illegal word written to CMD of an idle engine (R202). -/
theorem issue_of_decode_error {w : Word} {s : State} (h : ∃ e, decode w = .error e) (hb : s.busy = false) :
    issue w s = .next (setErr .illegalCmd s) := by
  obtain ⟨e, he⟩ := h
  rw [issue, he]
  exact issueChecked_idle hb _

/-- Settles O6: the words outside the table are those that do not decode, and CMD at offset 0x000 issues the word. -/
theorem illegalWordRaisesIllegalCmd : Obligations.IllegalWordRaisesIllegalCmd := by
  refine fun w => ⟨decode_error_iff.symm.trans decode_error_iff_ne_encode, fun s rest hb hw => ?_⟩
  have illegal := decode_error_iff.mpr hw
  exact ⟨issue_of_decode_error illegal hb,
    (step_regWrite_offset s .cmd w rest).trans (issue_of_decode_error illegal (by exact hb))⟩

end Sys2Proof.Machine
end

section
/-! PROOFS. The quarter round (R110 to R113): rotation, QRf as four moves of one shape, and the command QR. -/

namespace Sys2Proof.Machine

open Sys2Proof

/-! ### Rotation -/

/-- The engine's rotation is the library's (R110). -/
theorem rotl32_eq_rotateLeft {n : Nat} (h : n < 32) (x : Word) : rotl32 x n = x.rotateLeft n := by
  rw [BitVec.rotateLeft_def, Nat.mod_eq_of_lt h, rotl32]

/-- Settles O20: the n low bits of the result are the top bits of x, and the others have moved up by n. -/
theorem rotationIsCircular : Obligations.RotationIsCircular := by
  intro x n j h1 hn hj
  rw [rotl32_eq_rotateLeft (by omega), BitVec.getLsbD_rotateLeft, Nat.mod_eq_of_lt (by omega)]
  by_cases low : j < n
  · have source : (j + 32 - n) % 32 = 32 - n + j := by omega
    simp [low, source]
  · have source : (j + 32 - n) % 32 = j - n := by omega
    simp [low, source, hj]

/-- Rotating left by n and then by 32 - n is a full turn: the second undoes the first. -/
theorem rotl32_rotl32_sub {n : Nat} (h1 : 1 ≤ n) (hn : n ≤ 31) (x : Word) : rotl32 (rotl32 x n) (32 - n) = x := by
  refine BitVec.eq_of_getLsbD_eq fun j hj => ?_
  rw [rotationIsCircular _ _ _ (by omega) (by omega) hj, rotationIsCircular _ _ _ h1 hn (Nat.mod_lt _ (by decide))]
  congr 1
  omega

/-! ### QRf as four moves -/

/-- One line of R111's pseudocode, with the words renamed so that the next line is this one again: add b to a, xor a
into d, rotate d, then let (c, d, a, b) be the new (a, b, c, d). -/
def qrMove (n : Nat) : Word × Word × Word × Word → Word × Word × Word × Word
  | (a, b, c, d) => (c, rotl32 (d ^^^ (a + b)) n, a + b, b)

/-- QRf is its four lines in order; an even number of renamings leaves the words' names as they were. -/
theorem qrf_eq_moves (a b c d : Word) : qrf a b c d = qrMove 7 (qrMove 8 (qrMove 12 (qrMove 16 (a, b, c, d)))) := rfl

/-- A line of R111 from its sum modulo 2^32 and its circular shift. -/
theorem qrMove_eq {n : Nat} (hn : n < 32) {a b c d a' d' : Word} (sum : a'.toNat = (a.toNat + b.toNat) % 2 ^ 32)
    (turn : d' = (d ^^^ a').rotateLeft n) : qrMove n (a, b, c, d) = (c, d', a', b) := by
  have ha : a + b = a' := BitVec.eq_of_toNat_eq ((BitVec.toNat_add a b).trans sum.symm)
  rw [qrMove, ha, rotl32_eq_rotateLeft hn, turn]

/-- Settles O21: the twelve statements are the four lines, each giving the words the next one reads. -/
theorem quarterRoundStatements : Obligations.QuarterRoundStatements := by
  intro a0 b0 c0 d0 a1 b1 c1 d1 a2 b2 c2 d2 ha1 hd1 hc1 hb1 ha2 hd2 hc2 hb2
  rw [qrf_eq_moves, qrMove_eq (by decide) ha1 hd1, qrMove_eq (by decide) hc1 hb1, qrMove_eq (by decide) ha2 hd2,
    qrMove_eq (by decide) hc2 hb2]

/-! ### QRf is invertible -/

/-- A line of R111 undone, statement by statement: rotate d back, xor a out of it, subtract b from a (R113). -/
def qrUnmove (n : Nat) : Word × Word × Word × Word → Word × Word × Word × Word
  | (c, d, a, b) => (a - b, b, c, rotl32 d (32 - n) ^^^ a)

theorem qrMove_bijective {n : Nat} (h1 : 1 ≤ n) (hn : n ≤ 31) : Function.Bijective (qrMove n) := by
  refine Function.bijective_iff_has_inverse.mpr ⟨qrUnmove n, fun ⟨a, b, c, d⟩ => ?_, fun ⟨c, d, a, b⟩ => ?_⟩
  · rw [qrMove, qrUnmove, rotl32_rotl32_sub h1 hn, BitVec.add_sub_cancel, BitVec.xor_assoc, BitVec.xor_self,
      BitVec.xor_zero]
  · have turn : rotl32 (rotl32 d (32 - n)) n = d := by
      simpa [Nat.sub_sub_self (show n ≤ 32 by omega)] using rotl32_rotl32_sub (n := 32 - n) (by omega) (by omega) d
    rw [qrUnmove, qrMove, BitVec.sub_add_cancel, BitVec.xor_assoc, BitVec.xor_self, BitVec.xor_zero, turn]

/-- Settles O22: QRf is a composition of four bijections. -/
theorem quarterRoundIsBijective : Obligations.QuarterRoundIsBijective := by
  have lines12 := (qrMove_bijective (n := 12) (by decide) (by decide)).comp
    (qrMove_bijective (n := 16) (by decide) (by decide))
  have lines34 := (qrMove_bijective (n := 7) (by decide) (by decide)).comp
    (qrMove_bijective (n := 8) (by decide) (by decide))
  exact ⟨lines34.comp lines12, by decide⟩

/-! ### The command QR -/

/-- QR is accepted by any engine that is not busy (R112). -/
theorem exec_qr_accepted {s : State} (hb : s.busy = false) : exec .qr s = .next (beginLong .qr s) := by
  obtain ⟨t, ht, rfl⟩ := exec_idle hb .qr
  exact ht

/-- Settles O16: the issue part only marks the command as pending, and the completion part writes Q and ends it. -/
theorem qrIssuesAndCompletes : Obligations.QrIssuesAndCompletes := fun s =>
  ⟨fun hb => ⟨beginLong .qr s, completeQr (beginLong .qr s), exec_qr_accepted hb, rfl, rfl, rfl, rfl⟩,
    fun hb => exec_busy hb .qr⟩

end Sys2Proof.Machine
end

section
/-! PROOFS. The passes of a double-round (R122 to R124), columns and diagonals being two ways to lay out four disjoint lines
of four positions, and the count of double-rounds (R125, R127, R128). -/

namespace Sys2Proof.Machine

open Sys2Proof

/-! ### One quarter round of a matrix -/

/-- A quarter round leaves every position but its four. -/
theorem qrAt_getElem_of_ne {i0 i1 i2 i3 j : Fin 16} (h0 : i0 ≠ j) (h1 : i1 ≠ j) (h2 : i2 ≠ j) (h3 : i3 ≠ j)
    (m : Matrix) : (qrAt i0 i1 i2 i3 m)[j] = m[j] := by
  rw [qrAt, Matrix.getElem_set_of_ne _ h3, Matrix.getElem_set_of_ne _ h2, Matrix.getElem_set_of_ne _ h1,
    Matrix.getElem_set_of_ne _ h0]

theorem Matrix.getElem_set_self (m : Matrix) (i : Fin 16) (v : Word) : (m.set i v)[i] = v :=
  Vector.getElem_set_self _

/-- The four positions of a quarter round, where they differ, hold QRf of what they held. -/
theorem qrAt_quad {i0 i1 i2 i3 : Fin 16} (h01 : i0 ≠ i1) (h02 : i0 ≠ i2) (h03 : i0 ≠ i3) (h12 : i1 ≠ i2)
    (h13 : i1 ≠ i3) (h23 : i2 ≠ i3) (m : Matrix) :
    ((qrAt i0 i1 i2 i3 m)[i0], (qrAt i0 i1 i2 i3 m)[i1], (qrAt i0 i1 i2 i3 m)[i2], (qrAt i0 i1 i2 i3 m)[i3]) =
      qrf m[i0] m[i1] m[i2] m[i3] := by
  simp only [qrAt, Matrix.getElem_set_self, Matrix.getElem_set_of_ne _ h01.symm, Matrix.getElem_set_of_ne _ h02.symm,
    Matrix.getElem_set_of_ne _ h03.symm, Matrix.getElem_set_of_ne _ h12.symm, Matrix.getElem_set_of_ne _ h13.symm,
    Matrix.getElem_set_of_ne _ h23.symm]

/-! ### Passes over disjoint lines -/

/-- The position of row r of column c (R122). -/
def columnPos (c r : Fin 4) : Fin 16 := Fin.ofNat 16 (4 * r + c)

/-- The position of row r of diagonal j, in column (j + r) mod 4 (R123). -/
def diagonalPos (j r : Fin 4) : Fin 16 := Fin.ofNat 16 (4 * r + (j + r) % 4)

/-- The quarter round of line l of a layout of the matrix. -/
def lineQr (pos : Fin 4 → Fin 4 → Fin 16) (m : Matrix) (l : Fin 4) : Matrix :=
  qrAt (pos l 0) (pos l 1) (pos l 2) (pos l 3) m

/-- The pass over the four lines of a layout. -/
def linePass (pos : Fin 4 → Fin 4 → Fin 16) (m : Matrix) : Matrix := [0, 1, 2, 3].foldl (lineQr pos) m

theorem colQr_eq_lineQr : colQr = lineQr columnPos := by
  funext m c
  fin_cases c <;> rfl

theorem diagQr_eq_lineQr : diagQr = lineQr diagonalPos := by
  funext m j
  fin_cases j <;> rfl

theorem columnPos_injective : Function.Injective2 columnPos := by
  unfold Function.Injective2
  decide

theorem diagonalPos_injective : Function.Injective2 diagonalPos := by
  unfold Function.Injective2
  decide

section
variable {pos : Fin 4 → Fin 4 → Fin 16} (disjoint : Function.Injective2 pos)
include disjoint

theorem lineQr_getElem_of_ne {l k : Fin 4} (h : l ≠ k) (m : Matrix) (r : Fin 4) :
    (lineQr pos m l)[pos k r] = m[pos k r] :=
  have apart (q : Fin 4) : pos l q ≠ pos k r := fun e => h (disjoint e).1
  qrAt_getElem_of_ne (apart 0) (apart 1) (apart 2) (apart 3) m

theorem lineQr_quad (m : Matrix) (l : Fin 4) :
    ((lineQr pos m l)[pos l 0], (lineQr pos m l)[pos l 1], (lineQr pos m l)[pos l 2], (lineQr pos m l)[pos l 3]) =
      qrf m[pos l 0] m[pos l 1] m[pos l 2] m[pos l 3] := by
  have apart {q r : Fin 4} (h : q ≠ r) : pos l q ≠ pos l r := fun e => h (disjoint e).2
  exact qrAt_quad (apart (by decide)) (apart (by decide)) (apart (by decide)) (apart (by decide)) (apart (by decide))
    (apart (by decide)) m

/-- Quarter rounds of two lines commute. -/
theorem lineQr_comm (m : Matrix) (l k : Fin 4) : lineQr pos (lineQr pos m l) k = lineQr pos (lineQr pos m k) l := by
  by_cases h : l = k
  · rw [h]
  · have apart (q r : Fin 4) : pos k q ≠ pos l r := fun e => h (disjoint e).1.symm
    refine qrAt_comm m _ _ _ _ _ _ _ _ ?_
    simp [apart]

/-- The order of the lines of a pass is irrelevant (R124). -/
theorem foldl_lineQr_perm {order order' : List (Fin 4)} (h : order.Perm order') (m : Matrix) :
    order.foldl (lineQr pos) m = order'.foldl (lineQr pos) m :=
  have : RightCommutative (lineQr pos) := ⟨lineQr_comm disjoint⟩
  h.foldl_eq m

theorem foldl_lineQr_getElem_of_notMem {order : List (Fin 4)} {k : Fin 4} (h : k ∉ order) (m : Matrix) (r : Fin 4) :
    (order.foldl (lineQr pos) m)[pos k r] = m[pos k r] := by
  induction order generalizing m with
  | nil => rfl
  | cons l ls ih =>
    rw [List.foldl_cons, ih (List.not_mem_of_not_mem_cons h),
      lineQr_getElem_of_ne disjoint (List.ne_of_not_mem_cons h).symm]

/-- A pass replaces each of its lines by the quarter round of that line: the line's own round may stand first, and the
others leave it alone. -/
theorem linePass_quad (m : Matrix) (l : Fin 4) :
    ((linePass pos m)[pos l 0], (linePass pos m)[pos l 1], (linePass pos m)[pos l 2], (linePass pos m)[pos l 3]) =
      qrf m[pos l 0] m[pos l 1] m[pos l 2] m[pos l 3] := by
  have first : linePass pos m = ([0, 1, 2, 3].erase l).foldl (lineQr pos) (lineQr pos m l) :=
    foldl_lineQr_perm disjoint (List.perm_cons_erase (by decide +revert)) m
  have others : l ∉ [0, 1, 2, 3].erase l := List.Nodup.not_mem_erase (by decide)
  simp only [first, foldl_lineQr_getElem_of_notMem disjoint others]
  exact lineQr_quad disjoint m l

end

theorem colPass_eq_linePass : colPass = linePass columnPos := by
  funext m
  rw [colPass, linePass, colQr_eq_lineQr]

theorem diagPass_eq_linePass : diagPass = linePass diagonalPos := by
  funext m
  rw [diagPass, linePass, diagQr_eq_lineQr]

/-- Settles O25: the columns are four disjoint lines, whose positions are those of R122. -/
theorem columnPassRoundsEachColumn : Obligations.ColumnPassRoundsEachColumn := by
  intro m c
  have pass := linePass_quad columnPos_injective m c
  rw [← colPass_eq_linePass] at pass
  fin_cases c <;> exact pass

/-- Settles O26: the diagonals are four disjoint lines, whose positions are those of R123. -/
theorem diagonalPassRoundsEachDiagonal : Obligations.DiagonalPassRoundsEachDiagonal := by
  intro m
  have pass := linePass_quad diagonalPos_injective m
  rw [← diagPass_eq_linePass] at pass
  exact ⟨pass 0, pass 1, pass 2, pass 3⟩

/-- Settles O27: quarter rounds of disjoint lines commute, so a pass is the same over every permutation of its lines. -/
theorem orderWithinAPassIsIrrelevant : Obligations.OrderWithinAPassIsIrrelevant := by
  intro m order h
  rw [colPass_eq_linePass, diagPass_eq_linePass, colQr_eq_lineQr, diagQr_eq_lineQr]
  exact ⟨foldl_lineQr_perm columnPos_injective h m, foldl_lineQr_perm diagonalPos_injective h m⟩

/-! ### The count of double-rounds -/

theorem perm_add (m : Matrix) (a b : Nat) : perm m (a + b) = perm (perm m a) b := by
  induction a generalizing m with
  | zero => rw [Nat.zero_add, perm_zero]
  | succ a ih => rw [Nat.add_right_comm, perm_succ, perm_succ, ih]

/-- Settles O28: perm is DR iterated on the state matrix alone. -/
theorem roundCountsAddUp : Obligations.RoundCountsAddUp := fun m a b => ⟨perm_zero m, rfl, perm_add m a b⟩

end Sys2Proof.Machine
end

section
/-! PROOFS. The initial matrix (R120, R121), and the commands GEN and GENINC (R130 to R142). -/

namespace Sys2Proof.Machine

open Sys2Proof

/-! ### The initial matrix -/

/-- Settles O23: the 16 bytes of the table's words, one by one. -/
theorem sigmaSpellsTheConstant : Obligations.SigmaSpellsTheConstant :=
  ⟨rfl, by decide⟩

/-- Settles O24: row by row; the halves of POS and NONCE are the registers they are joined from. -/
theorem initialMatrixRows : Obligations.InitialMatrixRows := by
  refine ⟨fun s => ⟨lowWord_join64 .., highWord_join64 .., lowWord_join64 .., highWord_join64 ..⟩,
    fun k pos nonce c => ?_⟩
  fin_cases c <;> exact ⟨rfl, rfl, rfl, rfl, rfl, rfl, rfl⟩

/-! ### GEN and GENINC -/

/-- The issue part of a generation by a constructed engine (R140, R141). -/
theorem issueGenerate_locked {s : State} (hb : s.busy = false) (hl : s.locked = true) (op : LongOp) :
    issueGenerate op s = .next (beginLong op { s with ksv := false }) := by
  rw [issueGenerate, issueChecked_idle hb, if_pos hl]

/-- An engine that is not constructed has no key to generate from (R140). -/
theorem issueGenerate_unlocked {s : State} (hb : s.busy = false) (hl : s.locked = false) (op : LongOp) :
    issueGenerate op s = .next (setErr .notConfigured s) := by
  rw [issueGenerate, issueChecked_idle hb, hl]
  rfl

/-- Settles O17: the issue part and the completion part that GEN shares with GENINC, at POS as it stands. -/
theorem genIssuesAndCompletes : Obligations.GenIssuesAndCompletes := fun s =>
  ⟨fun hb hl => ⟨_, generate (beginLong .gen { s with ksv := false }), issueGenerate_locked hb hl .gen,
      rfl, rfl, rfl, rfl⟩,
    fun hb hl => issueGenerate_unlocked hb hl .gen, fun hb => exec_busy hb .gen⟩

/-- Settles O18: as GEN, at POS + 1, whose halves join to it again. -/
theorem genincIssuesAndCompletes : Obligations.GenincIssuesAndCompletes := by
  refine fun s => ⟨fun hb hl => ⟨_, generate (advancePos (beginLong .geninc { s with ksv := false })),
      issueGenerate_locked hb hl .geninc, rfl, rfl, rfl, ?_, rfl⟩,
    fun hb hl => issueGenerate_unlocked hb hl .geninc, fun hb => exec_busy hb .geninc⟩
  exact (congrArg BitVec.toNat (advancePos_pos s)).trans (BitVec.toNat_add ..)

/-- KS after the completion of a GEN (R140). -/
theorem engineStep_ks_of_gen {s : State} (h : s.pend = some .gen) :
    (engineStep s).ks = perm (initMatrix s.key s.pos s.nonce) s.roundCount := by
  rw [engineStep, h, completeGen, generate_ks]

theorem block_getElem (k : Vector Word 8) (n : Nat) (pos nonce : DWord) {j : Nat} (h : j < 32) :
    (block k n pos nonce)[j] = (ser (perm (initMatrix k pos nonce) n))[j] := by
  rw [block, Vector.getElem_ofFn, block64]

/-- Settles O30: the block is the first half of the serialization of KS, whose bytes stand in the words in that order. -/
theorem keystreamBlockStandsInKs : Obligations.KeystreamBlockStandsInKs := by
  intro s h i k
  rw [engineStep_ks_of_gen h, block_getElem]
  exact (serializerByteOrder _ ⟨i, by omega⟩ k).symm

/-- Settles O31: KS is a function of KEY, POS, NONCE and ROUNDS. -/
theorem generationReadsNothingElse : Obligations.GenerationReadsNothingElse := by
  intro s t hs ht key rounds posLo posHi nonceLo nonceHi
  have pos : s.pos = t.pos := congrArg₂ join64 posHi posLo
  have nonce : s.nonce = t.nonce := congrArg₂ join64 nonceHi nonceLo
  have count : s.roundCount = t.roundCount := congrArg (·.toInt.toNat) rounds
  rw [engineStep_ks_of_gen hs, engineStep_ks_of_gen ht, key, pos, nonce, count]

end Sys2Proof.Machine
end

section
/-! PROOFS. The command XOR and the keystream-XOR datapath (spec/42_keystream_xor.md R150 to R152). -/

namespace Sys2Proof.Machine

open Sys2Proof

/-! ### The issue part -/

/-- An engine with no valid keystream has nothing to combine DIN with, whatever LEN is (R150). -/
theorem exec_xor_noKeystream {s : State} (hb : s.busy = false) (hk : s.ksv = false) :
    exec .xor s = .next (setErr .noKeystream s) := by
  obtain ⟨t, ht, ⟨-, he⟩ | ⟨h, -⟩ | ⟨h, -⟩⟩ := exec_idle hb .xor
  · rw [ht, he]
  · simp [hk] at h
  · simp [hk] at h

/-- LEN is looked at only where a keystream is valid (R150). -/
theorem exec_xor_badLen {s : State} (hb : s.busy = false) (hk : s.ksv = true) (hn : 32 < s.len.toNat) :
    exec .xor s = .next (setErr .badLen s) := by
  obtain ⟨t, ht, ⟨h, -⟩ | ⟨-, -, he⟩ | ⟨-, h, -⟩⟩ := exec_idle hb .xor
  · simp [hk] at h
  · rw [ht, he]
  · omega

/-! ### The completion part -/

theorem engineStep_of_xor {s : State} (h : s.pend = some .xor) : engineStep s = completeXor s := by
  rw [engineStep, h]

/-- Every byte of DOUT after the completion of an XOR (R150). -/
theorem engineStep_dout_byte_of_xor {s : State} (h : s.pend = some .xor) (i : Fin 8) (k : Fin 4) :
    ((engineStep s).dout[i]).extractLsb' (8 * k) 8 =
      if 4 * i.val + k.val < s.len.toNat then
        (s.din[i]).extractLsb' (8 * k) 8 ^^^ (s.ks[i.val]).extractLsb' (8 * k) 8
      else 0 := by
  rw [engineStep_of_xor h, completeXor_dout]
  exact xorBlock_byte s.len s.din s.ks i k

/-- Settles O19: the four outcomes of the issue part, and the bytes of the datapath at the completion. -/
theorem xorIssuesAndCompletes : Obligations.XorIssuesAndCompletes := fun s =>
  ⟨fun hb hk hn => ⟨_, _, exec_xor_accepted hb hk hn, rfl, rfl, rfl,
      engineStep_dout_byte_of_xor (s := beginLong .xor s) rfl⟩,
    exec_xor_noKeystream, exec_xor_badLen, fun hb => exec_busy hb .xor⟩

/-- Settles O32: below LEN the second XOR takes the keystream byte away again, (x ^ k) ^ k = x. -/
theorem xorTwiceGivesBackTheData : Obligations.XorTwiceGivesBackTheData := by
  intro s h i k hj
  have second := engineStep_dout_byte_of_xor
    (s := { engineStep s with din := (engineStep s).dout, pend := some .xor }) rfl i k
  have hlen : (engineStep s).len = s.len := by rw [engineStep_of_xor h, completeXor_len]
  have hks : (engineStep s).ks = s.ks := by rw [engineStep_of_xor h, completeXor_ks]
  rw [second, hlen, hks, if_pos hj, engineStep_dout_byte_of_xor h, if_pos hj, BitVec.xor_assoc, BitVec.xor_self,
    BitVec.xor_zero]

/-- Settles O33: byte j of DOUT is a function of the two bytes and of j < LEN. -/
theorem xorLanesAreIndependent : Obligations.XorLanesAreIndependent := by
  intro s t i k hs ht din ks below
  rw [engineStep_dout_byte_of_xor hs, engineStep_dout_byte_of_xor ht, din, ks]
  exact if_congr below rfl rfl

end Sys2Proof.Machine
end

section
/-! PROOFS. The construction and control commands: NOP, CFG, CLR, CLRERR (spec/43_control_commands.md R160 to R166). -/

namespace Sys2Proof.Machine

open Sys2Proof

/-! ### CFG -/

/-- The model's comparison s32(ROUNDS) <= 0 is the test of R162: ROUNDS is 0 or has bit 31 set. -/
theorem toInt_nonpos_iff (x : Word) : x.toInt ≤ 0 ↔ x = 0 ∨ x.getLsbD 31 = true := by
  have sign : x.getLsbD 31 = true ↔ x.toInt < 0 := by
    rw [← BitVec.msb_eq_getLsbD_last, BitVec.msb_eq_toInt, decide_eq_true_iff]
  have zero : x = 0 ↔ x.toInt = 0 := (BitVec.toInt_inj (y := 0#32)).symm
  rw [sign, zero]
  omega

/-- CFG's effect on an unlocked engine with a legal round count is to lock it, and nothing else (R162). -/
theorem exec_cfg_accepted {s : State} (hb : s.busy = false) (hl : s.locked = false) (hr : 0 < s.rounds.toInt) :
    exec .cfg s = .next { s with locked := true } := by
  obtain ⟨t, ht, ⟨h, -⟩ | ⟨-, h, -⟩ | ⟨-, -, he⟩⟩ := exec_idle hb .cfg
  · simp [hl] at h
  · omega
  · rw [ht, he]

/-- A locked engine raises LOCKED whatever ROUNDS is (R162). -/
theorem exec_cfg_locked {s : State} (hb : s.busy = false) (hl : s.locked = true) :
    exec .cfg s = .next (setErr .locked s) := by
  obtain ⟨t, ht, ⟨-, he⟩ | ⟨h, -⟩ | ⟨h, -⟩⟩ := exec_idle hb .cfg
  · rw [ht, he]
  · simp [hl] at h
  · simp [hl] at h

/-- ROUNDS is looked at only where the engine is not locked (R162). -/
theorem exec_cfg_badRounds {s : State} (hb : s.busy = false) (hl : s.locked = false) (hr : s.rounds.toInt ≤ 0) :
    exec .cfg s = .next (setErr .badRounds s) := by
  obtain ⟨t, ht, ⟨h, -⟩ | ⟨-, -, he⟩ | ⟨-, h, -⟩⟩ := exec_idle hb .cfg
  · simp [hl] at h
  · rw [ht, he]
  · omega

/-- Settles O13: the three outcomes of CFG on an idle engine, with the round count read as R162 words it. -/
theorem cfgConstructsOrRaises : Obligations.CfgConstructsOrRaises := fun s =>
  ⟨fun hb hl h0 h31 => exec_cfg_accepted hb hl <| not_le.mp fun hr =>
      ((toInt_nonpos_iff s.rounds).mp hr).elim h0 (ne_true_of_eq_false h31),
    exec_cfg_locked,
    fun hb hl hr => exec_cfg_badRounds hb hl ((toInt_nonpos_iff s.rounds).mpr hr),
    fun hb => exec_busy hb .cfg⟩

/-! ### NOP, CLR and CLRERR -/

/-- NOP is accepted by any engine that is not busy and has no effect (R160). -/
theorem exec_nop_accepted {s : State} (hb : s.busy = false) : exec .nop s = .next s := by
  obtain ⟨t, ht, rfl⟩ := exec_idle hb .nop
  exact ht

/-- CLR is accepted by any engine that is not busy, constructed or not (R164). -/
theorem exec_clr_accepted {s : State} (hb : s.busy = false) :
    exec .clr s = .next { s with ks := Vector.replicate 16 0, dout := Vector.replicate 8 0, ksv := false } := by
  obtain ⟨t, ht, rfl⟩ := exec_idle hb .clr
  exact ht

/-- CLRERR is accepted by any engine that is not busy, whatever error is recorded (R166). -/
theorem exec_clrerr_accepted {s : State} (hb : s.busy = false) : exec .clrerr s = .next { s with err := .none } := by
  obtain ⟨t, ht, rfl⟩ := exec_idle hb .clrerr
  exact ht

/-- Settles O12: the idle effect of NOP is none, and the busy one is that of every command. -/
theorem nopChangesNothing : Obligations.NopChangesNothing := fun _ =>
  ⟨exec_nop_accepted, fun hb => exec_busy hb .nop⟩

/-- Settles O14: CLR leaves zero vectors and KSV = 0, and an XOR looks at KSV first. -/
theorem clrDestroysTheOutputs : Obligations.ClrDestroysTheOutputs := fun _ =>
  ⟨fun hb => ⟨_, exec_clr_accepted hb, rfl, fun i => Vector.getElem_replicate i.isLt,
      fun i => Vector.getElem_replicate i.isLt, exec_xor_noKeystream hb rfl⟩,
    fun hb => exec_busy hb .clr⟩

/-- Settles O15: the BUSY error of a refused CLRERR is not recorded over an earlier one (R204). -/
theorem clrerrClearsTheErrorRecord : Obligations.ClrerrClearsTheErrorRecord := fun _ =>
  ⟨exec_clrerr_accepted, fun hb => exec_busy hb .clrerr,
    fun hb he => by rw [exec_busy hb, setErr_of_err_ne_none he]⟩

end Sys2Proof.Machine
end

section
/-! PROOFS. The stream driver's procedures (spec/45_stream_driver.md R182 to R189): each is one XOR of the whole buffer
with a keystream per block, so the round trip and the bytes of every block follow from what that XOR does. -/

namespace Sys2Proof.Machine

open Sys2Proof

/-! ### The XOR of a whole buffer -/

theorem nblocks_eq (size : Nat) : nblocks size = (size + 31) / 32 := rfl

/-- A block that holds a byte of the buffer is one of its blocks (R181). -/
theorem lt_nblocks {size i j : Nat} (h : 32 * i + j < size) : i < nblocks size := by
  rw [nblocks_eq]
  omega

/-- Byte j of block i of the output. -/
theorem cryptBuffer_getElem? (ks : Nat → Vector Byte 32) (data : List Byte) (i : Nat) (j : Fin 32)
    (h : 32 * i + j.val < data.length) :
    (cryptBuffer ks data)[32 * i + j.val]? = some (data[32 * i + j.val] ^^^ (ks i)[j]) := by
  rw [cryptBuffer, cryptBlocks_getElem? ks _ 0 data (le_nblocks _) i j h, Nat.zero_add]

/-- The XOR is undone by any keystreams that agree on the blocks the buffer has: (x ^ k) ^ k = x in every byte. -/
theorem cryptBuffer_cryptBuffer {ks ks' : Nat → Vector Byte 32} {data : List Byte}
    (agree : ∀ i < nblocks data.length, ks' i = ks i) : cryptBuffer ks' (cryptBuffer ks data) = data := by
  have length := cryptBuffer_length ks data
  apply List.ext_getElem?
  intro p
  by_cases hp : p < data.length
  · obtain ⟨i, j, rfl⟩ : ∃ (i : Nat) (j : Fin 32), p = 32 * i + j.val :=
      ⟨p / 32, ⟨p % 32, by omega⟩, (Nat.div_add_mod p 32).symm⟩
    obtain ⟨_, once⟩ := List.getElem?_eq_some_iff.mp (cryptBuffer_getElem? ks data i j hp)
    rw [cryptBuffer_getElem? ks' _ i j (by omega), once, agree i (lt_nblocks hp), BitVec.xor_assoc, BitVec.xor_self,
      BitVec.xor_zero, List.getElem?_eq_getElem hp]
  · have beyond : data.length ≤ p := by omega
    rw [List.getElem?_eq_none beyond, List.getElem?_eq_none (by rwa [cryptBuffer_length, length])]

/-! ### Decryption -/

/-- With a nonce for every block decryption never fails (R184). -/
theorem decrypt_nonces (k : Vector Word 8) (n : Nat) {data : List Byte} (start : DWord) {nonces : List DWord}
    (h : nblocks data.length ≤ nonces.length) :
    decrypt k n data start (some nonces) =
      .ok (cryptBuffer (fun i => block k n (start + BitVec.ofNat 64 (i + 1)) (nonces.getD i 0)) data) := by
  rw [decrypt_eq, nonceUnderrun, decide_eq_false (not_lt.mpr h)]
  rfl

theorem decrypt_noNonces (k : Vector Word 8) (n : Nat) (data : List Byte) (start : DWord) :
    decrypt k n data start none =
      .ok (cryptBuffer (fun i => block k n (start + BitVec.ofNat 64 (i + 1)) 0) data) := by
  rw [decrypt_eq]
  rfl

theorem decrypt_underrun (k : Vector Word 8) (n : Nat) {data : List Byte} (start : DWord) {nonces : List DWord}
    (h : nonces.length < nblocks data.length) : decrypt k n data start (some nonces) = .error .nonceUnderrun := by
  rw [decrypt_eq, nonceUnderrun, decide_eq_true h]
  rfl

/-- Settles O57: the underrun is looked at before the first block, and past it each byte is that of the whole XOR. -/
theorem nonceUnderrunFails : Obligations.NonceUnderrunFails := fun k n data start =>
  ⟨fun _ => ⟨decrypt_underrun k n start, fun enough =>
      ⟨_, decrypt_nonces k n start enough, cryptBuffer_length _ data, cryptBuffer_getElem? _ data⟩⟩,
    _, decrypt_noNonces k n data start, cryptBuffer_length _ data, cryptBuffer_getElem? _ data⟩

/-! ### Encryption -/

/-- The nonces an encryption of m blocks draws, where nonceSource has been called calls times before (R186). -/
def drawnNonces (calls m : Nat) : List DWord := (List.range m).map fun i => Config.nonceSource (calls + i)

theorem drawnNonces_length (calls m : Nat) : (drawnNonces calls m).length = m := by
  rw [drawnNonces, List.length_map, List.length_range]

theorem drawnNonces_getElem? {calls m i : Nat} (h : i < m) :
    (drawnNonces calls m)[i]? = some (Config.nonceSource (calls + i)) := by
  rw [drawnNonces, List.getElem?_map, List.getElem?_range h, Option.map_some]

theorem drawnNonces_getD {calls m i : Nat} (h : i < m) :
    (drawnNonces calls m).getD i 0 = Config.nonceSource (calls + i) := by
  rw [List.getD_eq_getElem?_getD, drawnNonces_getElem? h, Option.getD_some]

/-- With a sink block i uses draw i, and the draws are appended to what the sink held (R182). -/
theorem encrypt_sink (k : Vector Word 8) (n : Nat) (data : List Byte) (start : DWord) (old : List DWord) (calls : Nat) :
    encrypt k n data start (some old) calls =
      (cryptBuffer (fun i => block k n (start + BitVec.ofNat 64 (i + 1)) (Config.nonceSource (calls + i))) data,
       some (old ++ drawnNonces calls (nblocks data.length))) :=
  encrypt_eq k n data start (some old) calls

/-- Without a sink every nonce is 0 (R182). -/
theorem encrypt_noSink (k : Vector Word 8) (n : Nat) (data : List Byte) (start : DWord) (calls : Nat) :
    encrypt k n data start none calls =
      (cryptBuffer (fun i => block k n (start + BitVec.ofNat 64 (i + 1)) 0) data, none) :=
  encrypt_eq k n data start none calls

/-- Settles O55: decryption runs the same XOR again, with the nonces the sink gained or with 0 in every block. -/
theorem decryptUndoesEncrypt : Obligations.DecryptUndoesEncrypt := by
  intro k n data start calls
  refine ⟨⟨drawnNonces calls (nblocks data.length), ?_, ?_⟩, ?_, fun sink => ?_⟩
  · rw [encrypt_sink, List.nil_append]
  · rw [encrypt_sink, decrypt_nonces k n start (by rw [cryptBuffer_length, drawnNonces_length]),
      cryptBuffer_cryptBuffer fun i hi => by rw [drawnNonces_getD hi]]
  · rw [encrypt_noSink, decrypt_noNonces, cryptBuffer_cryptBuffer fun _ _ => rfl]
  · rw [encrypt_eq, cryptBuffer_length]

/-! ### The generator variant -/

/-- encryptGen as a whole (R185), where pos i and nonce i are what the generators return for block i, and before i and
between i what they remember before the call of posGen and before that of nonceGen. -/
theorem encryptGen_eq {σ : Type} (k : Vector Word 8) (n : Nat) (data : List Byte) (posGen nonceGen : Generator σ)
    {pos nonce : Nat → DWord} {before between : Nat → σ}
    (calls : ∀ i, i < nblocks data.length →
      posGen i (before i) = (pos i, between i) ∧ nonceGen i (between i) = (nonce i, before (i + 1))) :
    encryptGen k n data posGen nonceGen (before 0) =
      (cryptBuffer (fun i => block k n (pos i) (nonce i)) data, before (nblocks data.length)) := by
  have next (i : Nat) (hi : i < nblocks data.length) :
      generatorNext posGen nonceGen i (before i) = ((pos i, nonce i), before (i + 1)) := by
    obtain ⟨first, second⟩ := calls i hi
    simp only [generatorNext, first, second]
  rw [encryptGen, streamBlocks_eq k n _ (fun i => (pos i, nonce i)) before _ 0 data fun i _ hi => next i (by omega),
    Nat.zero_add]
  rfl

/-- Settles O56: the three variants are the XOR of the buffer with their own positions and nonces. -/
theorem sinkRecordsEachNonce : Obligations.SinkRecordsEachNonce := by
  refine fun k n data => ⟨fun start calls old => ?_, fun start calls => ?_,
    fun σ posGen nonceGen pos nonce before _ h => ?_⟩
  · refine ⟨drawnNonces calls (nblocks data.length), ?_, drawnNonces_length _ _, fun i hi => ?_, fun empty => ?_,
      fun i j h => ?_⟩
    · rw [encrypt_sink]
    · exact drawnNonces_getElem? (by rwa [drawnNonces_length] at hi)
    · rw [empty]
      rfl
    · rw [encrypt_sink, cryptBuffer_getElem? _ data i j h, drawnNonces_getD (lt_nblocks h)]
  · rw [encrypt_noSink]
    exact ⟨rfl, cryptBuffer_getElem? _ data⟩
  · rw [encryptGen_eq k n data posGen nonceGen h]
    exact ⟨rfl, cryptBuffer_length _ data, cryptBuffer_getElem? _ data⟩

end Sys2Proof.Machine
end

section
/-! PROOFS. The driver on the engine (spec/45_stream_driver.md R180, R183, R184, R185): construction by the host, one
block by GENINC and XOR, and the procedures' loops as the host's lines. -/

namespace Sys2Proof.Machine

open Sys2Proof

/-! ### Construction -/

theorem statusWord_err (s : State) : (statusWord s).extractLsb' 8 4 = s.err.code := by
  ext i hi
  simp [statusWord_above_flags s (show 2 < 8 + i by omega) (by omega), hi]

/-- The host fails exactly where the STATUS it has read holds BAD_ROUNDS (R180). -/
theorem newOutcome_statusWord (s : State) :
    newOutcome (statusWord s) = if s.err = .badRounds then .error .nonPositiveRounds else .ok () := by
  rw [newOutcome, statusWord_err]
  cases s.err <;> rfl

/-- A command's line is its issue part (R97). -/
theorem runLine_issueLine (i : Instr) (s : State) : runLine (issueLine i) s = exec i s :=
  (runLine_wr .cmd (encode i) s).trans (issue_of_decode (decode_encode i) s)

theorem newOnEngine_malformedKey {key : List Word} (h : key.length ≠ 8) (s : State) (rounds : Int) :
    newOnEngine key s rounds = .next (.error .malformedKey, s) := by
  rw [newOnEngine, newLines, if_pos h]

/-- new up to its CFG (R180): the host's writes put the key and the round count in place, CFG takes effect on them, and
the host reads STATUS. -/
theorem newOnEngine_eq {key : List Word} (h : key.length = 8) {s t : State} (hb : s.busy = false) (hl : s.locked = false)
    {rounds : Int}
    (cfg : exec .cfg { s with key := Vector.ofFn fun i => key.getD i 0, rounds := BitVec.ofInt 32 rounds } = .next t) :
    newOnEngine key s rounds = .next (newOutcome (statusWord t), answer (statusWord t) t) := by
  have write (u : State) (hb : u.busy = false) (hl : u.locked = false) :
      runLine (wr .rounds (BitVec.ofInt 32 rounds)) u = .next { u with rounds := BitVec.ofInt 32 rounds } :=
    (runLine_wr _ _ _).trans (writeReg_unlocked rfl hb hl _)
  have read : runLine (rd .status) t = .next (answer (statusWord t) t) := by rw [runLine_rd, readReg_status]
  rw [newOnEngine, newLines, if_neg (not_not.mpr h)]
  dsimp only
  rw [runLines_append_next (runLines_setKey hb hl _), runLines_cons (write _ (by exact hb) (by exact hl)),
    runLines_cons ((runLine_issueLine _ _).trans cfg), runLines_cons read]
  rfl

/-- The key registers hold the host's eight words in order. -/
theorem getElem?_eq_some_ofFn_getD {key : List Word} (h : key.length = 8) (i : Fin 8) :
    key[i.val]? = some (Vector.ofFn fun i : Fin 8 => key.getD i 0)[i] := by
  simp [List.getD_eq_getElem?_getD, h]

/-- Settles O59: the outcome is that of CFG (R162) on the key and the round count the host wrote. -/
theorem constructionOnTheEngine : Obligations.ConstructionOnTheEngine := by
  refine fun s key rounds => ⟨fun h => newOnEngine_malformedKey h s rounds,
    fun h hb hl he => ⟨fun hr => ?_, fun hr => ?_⟩⟩
  · have constructed := newOnEngine_eq h hb hl (exec_cfg_accepted (by exact hb) (by exact hl) (by exact hr))
    rw [newOutcome_statusWord, if_neg (by simp [he])] at constructed
    exact ⟨_, constructed, rfl, getElem?_eq_some_ofFn_getD h⟩
  · have refused := newOnEngine_eq h hb hl (exec_cfg_badRounds (by exact hb) (by exact hl) (by exact hr))
    rw [newOutcome_statusWord, if_pos (by simp [he])] at refused
    refine ⟨_, refused, ?_, getElem?_eq_some_ofFn_getD h⟩
    simp [answer, setErr, he]

/-! ### One block by GENINC and XOR -/

/-- A buffer of at most 32 bytes is one block, or none. -/
theorem cryptBuffer_of_length_le {bytes : List Byte} (h : bytes.length ≤ 32) (ks : Nat → Vector Byte 32) :
    cryptBuffer ks bytes = cryptChunk (ks 0) bytes := by
  cases bytes with
  | nil => rfl
  | cons b bytes =>
    have one : nblocks (b :: bytes).length = 1 := by
      rw [nblocks_eq]
      simp only [List.length_cons] at h ⊢
      omega
    rw [cryptBuffer, one, cryptBlocks, cryptBlocks, List.append_nil, Config.ksBytes, List.take_of_length_le h]

/-- DOUT after the XOR of a block with its keystream in KS is the driver's block, byte by byte (R150, R18). -/
theorem xorBlock_dinWords_byte {bytes : List Byte} (h : bytes.length ≤ 32) (key : Vector Word 8) (n : Nat)
    (pos nonce : DWord) (i : Fin 8) (k : Fin 4) (hj : 4 * i.val + k.val < bytes.length) :
    some (((xorBlock (BitVec.ofNat 32 bytes.length) (dinWords bytes) (perm (initMatrix key pos nonce) n))[i]).extractLsb'
        (8 * k) 8) =
      (cryptBuffer (fun _ => block key n pos nonce) bytes)[4 * i.val + k.val]? := by
  have chunk := xorBlock_chunk bytes h (perm (initMatrix key pos nonce) n)
  have word : (4 * i.val + k.val) / 4 = i.val := by omega
  have byte : (4 * i.val + k.val) % 4 = k.val := by omega
  rw [cryptBuffer_of_length_le h, block, block64, ← chunk, List.getElem?_take_of_lt hj, flatMap_wordBytes_getElem?,
    word, byte]
  simp [byteOf]

theorem engineStep_of_geninc {s : State} (h : s.pend = some .geninc) : engineStep s = generate (advancePos s) := by
  rw [engineStep, h, completeGeninc]

/-- Settles O58: GENINC leaves in KS the keystream of position POS + 1, and XOR combines DIN with its first 32 bytes. -/
theorem engineBlockIsTheDriversBlock : Obligations.EngineBlockIsTheDriversBlock := by
  intro s nonce bytes hb hl hn
  have driven : Driven s { s with nonceLo := lowWord nonce, nonceHi := highWord nonce } :=
    ⟨hb, hl, rfl, rfl, rfl, rfl⟩
  have accepted := driven.exec_geninc
  generalize ha : beginLong .geninc _ = a at accepted
  have completion : engineStep a = generate (advancePos a) := engineStep_of_geninc (by rw [← ha]; rfl)
  have position : (engineStep a).pos = s.pos + 1 := by
    rw [completion, generate_pos, advancePos_pos, ← ha]; rfl
  have keystream : (engineStep a).ks = perm (initMatrix s.key (s.pos + 1) nonce) s.roundCount := by
    have nonce_eq : a.nonce = nonce := by rw [← ha]; exact join64_high_low nonce
    rw [completion, generate_ks, advancePos_pos, advancePos_nonce, nonce_eq, ← ha]; rfl
  have errors : (engineStep a).err = s.err := by rw [engineStep_err, ← ha]; rfl
  have xorAccepted := exec_xor_accepted
    (s := { engineStep a with din := dinWords bytes, len := BitVec.ofNat 32 bytes.length })
    (by rw [completion]; rfl) (by rw [completion]; rfl) (by simp; omega)
  refine ⟨a, _, _, accepted, rfl, xorAccepted, position, errors, fun i k hj => ?_⟩
  show some (((xorBlock _ _ (engineStep a).ks)[i]).extractLsb' (8 * k) 8) = _
  rw [keystream]
  exact xorBlock_dinWords_byte hn _ _ _ _ i k hj

/-! ### The loops -/

/-- Every block of an encryption takes the position after the counter, and leaves the counter there (R182). -/
theorem encryptNext_pos (i : Nat) (v : EncryptVars) :
    (encryptNext i v).1.1 = v.pos + 1 ∧ (encryptNext i v).2.pos = v.pos + 1 := by
  rw [encryptNext]
  cases v.sink <;> exact ⟨rfl, rfl⟩

theorem decryptNext_pos (nonces : Option (List DWord)) (i : Nat) (pos : DWord) :
    (decryptNext nonces i pos).1.1 = pos + 1 ∧ (decryptNext nonces i pos).2 = pos + 1 := by
  cases nonces <;> exact ⟨rfl, rfl⟩

/-- The counter after m blocks (R182). -/
theorem streamBlocks_encryptNext_pos (k : Vector Word 8) (n m i : Nat) (data : List Byte) (v : EncryptVars) :
    (streamBlocks k n encryptNext m i data v).2.pos = v.pos + BitVec.ofNat 64 m := by
  induction m generalizing i data v with
  | zero => exact (BitVec.add_zero _).symm
  | succ m ih =>
    rw [streamBlocks]
    dsimp only
    rw [ih, (encryptNext_pos i v).2]
    exact (add_right_comm _ _ _).trans (pos_succ _ _)

/-- SETPOS on a driven engine. -/
theorem Driven.setPos {s0 s : State} (h : Driven s0 s) (v : DWord) :
    ∃ t, runLines (setPosLines v) s = .next t ∧ Driven s0 t ∧ t.pos = v :=
  ⟨{ s with posLo := lowWord v, posHi := highWord v },
    by simpa [runLines] using runLines_setPos h.busy v [],
    ⟨h.busy, h.locked, h.key, h.rounds, h.err, h.inputs⟩, join64_high_low v⟩

/-- A procedure with the running counter on the engine (R183, R184): the counter of its variables is counter, and POS
follows it. -/
theorem runningBlocks_eq {σ : Type} {next : BlockSource σ} {counter : σ → DWord}
    (advances : ∀ i v, (next i v).1.1 = counter v + 1 ∧ counter (next i v).2 = counter v + 1)
    {s0 s : State} (hs : Driven s0 s) (waits : Nat → Nat × Nat) (m : Nat) (data : List Byte) {v : σ}
    (hv : s.pos = counter v) :
    ∃ t, engineBlocks next runningBlockLines waits m 0 data v s =
        .next ((streamBlocks s0.key s0.roundCount next m 0 data v).1,
          (streamBlocks s0.key s0.roundCount next m 0 data v).2, t) ∧
      Driven s0 t ∧ t.pos = counter (streamBlocks s0.key s0.roundCount next m 0 data v).2 := by
  refine engineBlocks_eq _ _ next _ waits (fun v t => Driven s0 t ∧ t.pos = counter v) ?_ m 0 data v s ⟨hs, hv⟩
  rintro i v s bytes ⟨hs, hv⟩ hn
  obtain ⟨position, after⟩ := advances i v
  obtain ⟨t, ht, driven, pos, kept⟩ :=
    runLines_runningBlock hs (next i v).1 (position.trans (hv ▸ rfl)) bytes hn (waits i)
  exact ⟨t, ht, ⟨driven, pos.trans (position.trans after.symm)⟩, kept⟩

/-- Encryption on the engine (R183). -/
theorem encryptOnEngine_eq {s0 s : State} (hs : Driven s0 s) (data : List Byte) (start : DWord)
    (sink : Option (List DWord)) (calls : Nat) (waits : Nat → Nat × Nat) :
    ∃ t, encryptOnEngine data start sink calls waits s =
        .next ((encrypt s0.key s0.roundCount data start sink calls).1,
          (encrypt s0.key s0.roundCount data start sink calls).2, t) ∧
      Driven s0 t ∧ t.pos = start + BitVec.ofNat 64 (nblocks data.length) := by
  obtain ⟨u, hu, driven, pos⟩ := hs.setPos start
  obtain ⟨t, ht, driven, final⟩ := runningBlocks_eq (counter := EncryptVars.pos) encryptNext_pos driven waits
    (nblocks data.length) data (v := { pos := start, sink := sink, calls := calls }) pos
  refine ⟨t, ?_, driven, final.trans (streamBlocks_encryptNext_pos _ _ _ _ _ _)⟩
  rw [encryptOnEngine, hu, andThen_next, ht]
  rfl

theorem decrypt_eq_ok (k : Vector Word 8) (n : Nat) {data : List Byte} (start : DWord) {nonces : Option (List DWord)}
    (enough : nonceUnderrun nonces data.length = false) :
    decrypt k n data start nonces =
      .ok (streamBlocks k n (decryptNext nonces) (nblocks data.length) 0 data start).1 := by
  rw [decrypt, enough, if_neg Bool.false_ne_true]

/-- Decryption on the engine where no nonce is missing (R184). -/
theorem decryptOnEngine_eq {s0 s : State} (hs : Driven s0 s) {data : List Byte} (start : DWord)
    {nonces : Option (List DWord)} (enough : nonceUnderrun nonces data.length = false) (waits : Nat → Nat × Nat) :
    ∃ t, decryptOnEngine data start nonces waits s =
        .next (decrypt s0.key s0.roundCount data start nonces, t) ∧ Driven s0 t := by
  obtain ⟨u, hu, driven, pos⟩ := hs.setPos start
  obtain ⟨t, ht, driven, -⟩ := runningBlocks_eq (counter := id) (decryptNext_pos nonces) driven waits
    (nblocks data.length) data pos
  refine ⟨t, ?_, driven⟩
  rw [decrypt_eq_ok _ _ _ enough, decryptOnEngine, enough, if_neg Bool.false_ne_true, hu, andThen_next, ht]
  rfl

/-- The generator variant on the engine (R185): each block's lines set its position. -/
theorem encryptGenOnEngine_eq {σ : Type} {s0 s : State} (hs : Driven s0 s) (data : List Byte)
    (posGen nonceGen : Generator σ) (g : σ) (waits : Nat → Nat × Nat) :
    ∃ t, encryptGenOnEngine data posGen nonceGen g waits s =
        .next ((encryptGen s0.key s0.roundCount data posGen nonceGen g).1,
          (encryptGen s0.key s0.roundCount data posGen nonceGen g).2, t) ∧ Driven s0 t :=
  engineBlocks_eq _ _ (generatorNext posGen nonceGen) _ waits (fun _ t => Driven s0 t)
    (fun i _ _ bytes hs hn => runLines_generatedBlock hs _ bytes hn (waits i)) _ 0 data g s hs

/-- Settles O60: each procedure's loop on the engine is its loop beside the engine, block by block. -/
theorem engineRealisesTheDriver : Obligations.EngineRealisesTheDriver := by
  intro s data start waits hb hl
  have driven : Driven s s := ⟨hb, hl, rfl, rfl, rfl, rfl⟩
  refine ⟨fun sink calls => ?_, fun nonces => ?_, fun σ posGen nonceGen g => ?_⟩
  · obtain ⟨t, ht, after, pos⟩ := encryptOnEngine_eq driven data start sink calls waits
    exact ⟨t, ht, pos, after.err, after.busy, after.locked, after.key, after.rounds, after.inputs⟩
  · cases under : nonceUnderrun nonces data.length with
    | true =>
      refine ⟨s, ?_, rfl, fun _ => rfl⟩
      rw [decryptOnEngine, decrypt, if_pos under, if_pos under]
    | false =>
      obtain ⟨t, ht, after⟩ := decryptOnEngine_eq driven start under waits
      exact ⟨t, ht, after.err, fun failed => nomatch (decrypt_eq_ok _ _ _ under).symm.trans failed⟩
  · obtain ⟨t, ht, after⟩ := encryptGenOnEngine_eq driven data posGen nonceGen g waits
    exact ⟨t, ht, after.err⟩

end Sys2Proof.Machine
end

section
/-! PROOFS. The error record (spec/60_exceptions.md R204), and the step of an engine with no input, which completes what is
pending and otherwise changes nothing (R225, R241). -/

namespace Sys2Proof.Machine

open Sys2Proof

theorem setErr_of_err_eq_none {c : ErrCode} {s : State} (h : s.err = .none) : setErr c s = { s with err := c } := by
  rw [setErr, if_pos h]

/-- Settles O9: ERR = 0 is the one case in which the code is recorded. -/
theorem firstErrorIsKept : Obligations.FirstErrorIsKept :=
  fun _ _ => ⟨setErr_of_err_eq_none, setErr_of_err_ne_none⟩

theorem step_of_inputs_eq_nil {s : State} (h : s.inputs = []) : step s = .next (engineStep s) := by
  rw [step, h, quietStep]

theorem engineStep_of_pend_eq_none {s : State} (h : s.pend = none) : engineStep s = s := by
  rw [engineStep, h]

/-- Settles O46: with no input the step is the completion step, which does nothing where nothing is pending. -/
theorem idleEngineKeepsItsState : Obligations.IdleEngineKeepsItsState := by
  intro s noInput idle
  rw [step_of_inputs_eq_nil noInput, engineStep_of_pend_eq_none idle]

end Sys2Proof.Machine
end

section
/-! PROOFS. Reset and hazards (spec/70_reset_and_hazards.md R230 to R243): the reset step, the completion step, writes to a
busy engine, and the run that takes every input and completes what is pending. -/

namespace Sys2Proof.Machine

open Sys2Proof

/-! ### The reset step -/

theorem step_reset {s : State} {o : Option Access} {rest : List Input} (h : s.inputs = .reset o :: rest) :
    step s = .next (resetStep o { s with inputs := rest }) := by
  simp only [step, h, takeInput]

theorem resetStep_read {off : Int} {n : Nat} (h : accessOk off n = true) (s : State) :
    resetStep (some (.read off n)) s = answerDraw (resetRegisters s) := by
  rw [resetStep, accessRefusal_eq_none.mpr h]

/-- No register's value depends on the fields a reset leaves. -/
theorem regValue_resetRegisters (r : Reg) (s : State) : regValue r (resetRegisters s) = regValue r State.reset := by
  cases r <;> rfl

/-- Settles O2: reset is State.reset but for the model's own fields, and O50 names reset as all that clears LOCKED. -/
theorem resetStepRestoresEveryRegister : Obligations.ResetStepRestoresEveryRegister := by
  refine ⟨fun s rest hi => ?_, fun s t h locked unlocked => ?_⟩
  · exact ⟨_, step_reset hi, fun r => regValue_resetRegisters r _, rfl, rfl, rfl, rfl, rfl, rfl, rfl⟩
  · rcases (constructionIsFixedUntilReset s t h).2 locked with ⟨still, -⟩ | ⟨i, rest, hi, hr⟩
    · rw [still] at unlocked
      cases unlocked
    · cases i with
      | reset o => exact ⟨o, rest, hi⟩
      | host a => cases hr
      | engine => cases hr

/-- Settles O3: an overlapping write is not looked at, and an overlapping read only draws from the reset state. -/
theorem accessOverlappingResetIsLost : Obligations.AccessOverlappingResetIsLost := by
  refine fun s rest => ⟨fun off n v hi => ?_, fun off n ok hi => ?_⟩
  · rw [step_reset hi, step_reset (s := { s with inputs := .reset none :: rest }) rfl]
    rfl
  · refine ⟨_, step_reset rfl, ?_⟩
    rw [step_reset hi, resetStep_read ok]
    rfl

/-! ### Host accesses to a busy engine -/

/-- Settles O10: none of these registers is read-only, so each write meets the BUSY check, which comes first. -/
theorem writeWhileBusyIsDropped : Obligations.WriteWhileBusyIsDropped := by
  refine fun s v hb => ⟨fun r hr => writeReg_busy ?_ hb v, fun off rest h4 ho => ?_⟩
  · rcases hr with rfl | rfl | ⟨i, rfl⟩ | rfl | rfl | rfl | rfl | rfl | ⟨i, rfl⟩ | ⟨i, rfl⟩ <;> rfl
  · have hw : off ≤ 0xFC := by omega
    have writable : (regAt off).readOnly = false := by
      rw [← Bool.not_eq_true, regAt_readOnly h4 hw]
      omega
    rw [step_regWrite s h4 hw]
    exact writeReg_busy writable (by exact hb) v

/-- Settles O47: of the kinds of step a busy engine's host access is the quiet one, since a write that lands and a command
that is looked at need BUSY = 0. -/
theorem operandsAreFrozenWhileBusy : Obligations.OperandsAreFrozenWhileBusy := by
  intro s t a rest busy hi h
  cases step_kind h with
  | completion l hc e => rw [hi] at hc; simp at hc
  | reset o l hr e => rw [hi] at hr; cases hr
  | quiet a' l hq e herr =>
    obtain rfl : rest = l := (List.cons.inj (hi.symm.trans hq)).2
    exact e
  | write r v a' l hw idle hl e => rw [busy] at idle; cases idle
  | command i off n w l hc ho hr hd idle e => rw [busy] at idle; cases idle

/-! ### The completion step -/

/-- A completion changes none of NONCE, LEN and DIN, and takes no input. -/
theorem engineStep_operands (s : State) :
    engineStep s =
      { engineStep s with nonceLo := s.nonceLo, nonceHi := s.nonceHi, len := s.len, din := s.din, inputs := s.inputs } := by
  rcases engineStep_cases s with ⟨-, e⟩ | ⟨-, e⟩ | ⟨-, e⟩ | ⟨-, e⟩ | ⟨-, e⟩ <;> rw [e] <;> rfl

@[simp] theorem engineStep_nonceLo (s : State) : (engineStep s).nonceLo = s.nonceLo := by
  rw [engineStep_operands]

@[simp] theorem engineStep_nonceHi (s : State) : (engineStep s).nonceHi = s.nonceHi := by
  rw [engineStep_operands]

@[simp] theorem engineStep_len (s : State) : (engineStep s).len = s.len := by
  rw [engineStep_operands]

@[simp] theorem engineStep_din (s : State) : (engineStep s).din = s.din := by
  rw [engineStep_operands]

@[simp] theorem engineStep_inputs (s : State) : (engineStep s).inputs = s.inputs := by
  rw [engineStep_operands]

/-- The engine's step leaves nothing pending, whether or not there was something to complete (R240). -/
@[simp] theorem engineStep_pend (s : State) : (engineStep s).pend = none := by
  rcases engineStep_cases s with ⟨hp, e⟩ | ⟨-, e⟩ | ⟨-, e⟩ | ⟨-, e⟩ | ⟨-, e⟩ <;> rw [e]
  · exact hp
  all_goals rfl

theorem step_engine {s : State} {rest : List Input} (h : s.inputs = .engine :: rest) :
    step s = .next (engineStep { s with inputs := rest }) := by
  simp only [step, h, takeInput]

/-- Settles O44: the engine's turn is the completion step, whose frame is that of each command's completion part. -/
theorem completionStep : Obligations.CompletionStep := by
  refine ⟨fun s rest hi => ⟨step_engine hi, fun pending => ?_, fun idle => ?_⟩, fun s => step_of_inputs_eq_nil⟩
  · exact ⟨_, step_engine hi, engineStep_busy (by exact pending), engineStep_pend _, engineStep_err _, engineStep_locked _,
      engineStep_key _, engineStep_rounds _, engineStep_nonceLo _, engineStep_nonceHi _, engineStep_len _, engineStep_din _,
      engineStep_inputs _⟩
  · rw [step_engine hi, engineStep_of_pend_eq_none (by exact idle)]

/-! ### A run takes every input and then completes -/

theorem IssueEffect.inputs {i : Instr} {s t : State} (e : IssueEffect i s t) : t.inputs = s.inputs := by
  cases i with
  | nop | qr | clr | clrerr =>
    obtain rfl := e
    rfl
  | cfg | xor => rcases e with ⟨-, rfl⟩ | ⟨-, -, rfl⟩ | ⟨-, -, rfl⟩ <;> rfl
  | gen | geninc => rcases e with ⟨-, rfl⟩ | ⟨-, rfl⟩ <;> rfl

/-- Every step takes the oldest input and leaves the others standing in their order (R73). -/
theorem step_inputs {s t : State} (h : step s = .next t) : t.inputs = s.inputs.tail := by
  cases step_kind h with
  | completion l hi e =>
    rw [e, engineStep_inputs]
    rcases hi with ⟨hi, rfl⟩ | hi <;> rw [hi] <;> rfl
  | reset o rest hi e =>
    obtain ⟨d, r, rfl⟩ := e
    rw [hi, List.tail_cons]
  | quiet a rest hi e herr => rw [e, hi, List.tail_cons]
  | write r v a rest hi hb hl e => rw [e, setReg_inputs, hi, List.tail_cons]
  | command i off n w rest hi ho hr hd hb e => rw [e.inputs, hi, List.tail_cons]

/-- A step is refused only for an access outside the interface (R62). -/
theorem step_total {s : State} (ok : ∀ i ∈ s.inputs, i.ok = true) : ∃ t, step s = .next t := by
  cases hi : s.inputs with
  | nil => exact ⟨_, step_of_inputs_eq_nil hi⟩
  | cons i rest =>
    cases i with
    | host a =>
      have good : a.ok = true := ok (.host a) (hi ▸ List.mem_cons_self)
      obtain ⟨t, ht⟩ := hostAccess_total good { s with inputs := rest }
      exact ⟨t, (step_host hi).trans ht⟩
    | engine => exact ⟨_, step_engine hi⟩
    | reset o => exact ⟨_, step_reset hi⟩

/-- Settles O45, by induction on the inputs: each step takes one and keeps the invariant, and the step after the last is the
completion, after which the invariant gives BUSY = 0. -/
theorem everyPendingCommandCompletes : Obligations.EveryPendingCommandCompletes := by
  intro s inv ok
  generalize hi : s.inputs = l at ok
  induction l generalizing s with
  | nil =>
    have idle : (engineStep s).busy = false := by
      rw [← Bool.not_eq_true, inv.engineStep.busy_iff_pending, engineStep_pend]
      simp
    exact ⟨_, run_succ_next (step_of_inputs_eq_nil hi) 0, (engineStep_inputs s).trans hi, engineStep_pend s, idle⟩
  | cons i rest ih =>
    obtain ⟨t, ht⟩ := step_total (hi ▸ ok)
    have left : t.inputs = rest := by rw [step_inputs ht, hi, List.tail_cons]
    rw [List.length_cons, run_succ_next ht]
    exact ih t (everyStepKeepsTheInvariant s t inv ht) left fun j hj => ok j (List.mem_cons_of_mem i hj)

end Sys2Proof.Machine
end
